-- ==== Sys2Proof/Word.lean ====
section
/-!
DEFINITION. The bit-vector types of pearson_hash_engine (spec/00_scope.md R6: a byte is 8 bits, unsigned;
spec/20_memory.md R30: a ROM address is 8 bits; spec/30_encoding.md R50: a command word is 11 bits).
-/

namespace Sys2Proof

/-- An unsigned byte, 0..255 (R6). -/
abbrev Byte := BitVec 8

/-- An address of substitution_rom, 0..255 (R30). -/
abbrev Addr := BitVec 8

/-- The command word `cmd[10:0]` of format CMD (R50). -/
abbrev CmdWord := BitVec 11

end Sys2Proof
end

