-- ==== Sys2Proof/Config.lean ====
section
/-!
DEFINITION. What is fixed for the life of an instance (spec/00_scope.md R5): the type of digest widths and the
constants of the block. The table T, the other parameter, is the memory of Machine/Memory.lean. The spec leaves no
value as a draw (spec/93_implementation_defined.md, Part 1), so there is no free value here.
-/

namespace Sys2Proof

/-- The digest width W, one of 1, 2, 3 (R5; the source's NewHasher8, NewHasher16, NewHasher24). An instance of
any other width cannot be built (R62), so there is no constructor for one. -/
inductive Width where
  /-- W = 1 -/
  | one
  /-- W = 2 -/
  | two
  /-- W = 3 -/
  | three
deriving DecidableEq, Repr

/-- "maximum lanes: physical size of accumulator_array" (R5). -/
def maxLanes : Nat := 3

/-- DESIGN CHOICE (log entry 1; unsafe): the width of the instance that `State.reset` is. The spec leaves W a
parameter (R5); every other width is a state too, and statements range over all of them. -/
def resetWidth : Width := .three

end Sys2Proof
end

