-- ==== Sys2Proof/Machine/State.lean ====
section
/-!
DEFINITION. The state of one instance with its configuration and its port (spec/10_state.md R10, R14, R17;
spec/30_encoding.md R51), the reasons a step can stop, and the state right after HardReset (R18, R111, R114).
-/

namespace Sys2Proof.Machine

/-- `mode`, the state of update_fsm (R14). -/
inductive Mode where
  /-- no byte absorbed since the last reset; encoded 0 -/
  | awaitingFirstByte
  /-- at least one byte absorbed since the last reset; encoded 1 -/
  | streaming
deriving DecidableEq, Repr

/-- What the outside drives on the input pins during one step (R51). -/
structure StepInput where
  /-- `rst`, active high; while 1 the step is a HardReset (R111) -/
  rst : Bool
  /-- the strap `cfg_width[1:0]` (R62) -/
  cfgWidth : BitVec 2
  /-- `cmd_valid` (R59) -/
  cmdValid : Bool
  /-- `cmd[10:0]` (R50) -/
  cmd : CmdWord
  /-- a second, unserialised host drives the port in this step (R118; log entry 7) -/
  otherDriver : Bool
deriving DecidableEq, Repr

/-- What the block drives on the output pins during one step (R51, R56). -/
structure PortOut where
  /-- `cmd_ready` (R114, R121) -/
  cmdReady : Bool
  /-- `rsp_valid` (R55) -/
  rspValid : Bool
  /-- `rsp_len[1:0]` (R56) -/
  rspLen : BitVec 2
  /-- `rsp_data[23:0]` (R56) -/
  rspData : BitVec 24
deriving DecidableEq, Repr

/-- One instance. `acc` and `mode` are its whole state in the spec's sense (R10). `width` and `rom` are its
configuration (R5), held here as data no step writes (log entries 1 and 2). `inputs` and `out` are its pins
(log entries 3 and 4): no step reads `out`, and a step reads the first record of `inputs` only. -/
structure State where
  /-- the strap W of the instance (R5, R17) -/
  width : Width
  /-- substitution_rom, as the list of its differences from the table of R45 (Machine/Memory.lean) -/
  rom : List Host.Cell
  /-- the accumulator lanes, lane 0 first (R11); its length is W (R12) -/
  acc : List Byte
  /-- the first-byte flag (R14) -/
  mode : Mode
  /-- what the outside drives on the input pins in the coming steps, one record a step, oldest first -/
  inputs : List StepInput
  /-- what the block drove on the output pins in the step just taken -/
  out : PortOut
deriving DecidableEq, Repr

/-- The block raises no exception and has no fault outcome (R100, R106): there is no fault to name, and nobody can
raise one. Safe. -/
inductive Fault where
deriving DecidableEq, Repr

/-- Why the model gives a step no meaning; each is "a mark kept for the whole run" (R110), since a run stops at it. -/
inductive Refusal where
  /-- Raised by `exec` for a command that has no meaning yet (none is left). Safe: nothing is claimed of it. -/
  | notModelled (mnemonic : String)
  /-- Raised by the port for a presented word whose opcode is 6 or 7 (R57). Safe: the model says nothing. -/
  | reservedOpcode (op : BitVec 3)
  /-- Raised by the port when the strap is 0 (R62). Safe: the model says nothing. -/
  | illegalStrap
  /-- Raised by the port when the strap is not the instance's width (R62). Safe: the model says nothing. -/
  | strapChanged
  /-- Raised by the port when a second host drives it (R118). Safe: the model says nothing. -/
  | secondDriver
deriving DecidableEq, Repr

/-- Right after HardReset: "`mode = AwaitingFirstByte` and `acc[i] = 0x00` for every lane" (R18), the outputs of a
HardReset step (R114), nothing presented yet (log entry 3), on the instance of log entries 1 and 2. -/
def State.reset : State where
  width := resetWidth
  rom := []
  acc := [0, 0, 0]
  mode := .awaitingFirstByte
  inputs := []
  out := { cmdReady := false, rspValid := false, rspLen := 0, rspData := 0 }

end Sys2Proof.Machine
end

