-- ==== Sys2Proof/Machine/Flags.lean ====
section
/-!
DEFINITION. The block's only flag, `mode` (spec/10_state.md R14, R15): "there are no condition codes, carry,
overflow, zero or sign flags".
-/

namespace Sys2Proof.Machine

/-- The encoding of `mode`: `AwaitingFirstByte` as 0 and `Streaming` as 1; "not observable" (R14). -/
def Mode.encode : Mode → BitVec 1
  | .awaitingFirstByte => 0
  | .streaming => 1

/-- `mode <- v` (R7). -/
def State.setMode (m : Mode) (s : State) : State := { s with mode := m }

end Sys2Proof.Machine
end

