-- ==== Sys2Proof/Machine/Memory.lean ====
section
/-!
DEFINITION. substitution_rom, the one memory of the block (spec/20_memory.md R30 to R37, R45): 256 bytes at
addresses 0..255, all populated, never written. Its contents T are the instance's parameter (R5, R36), held as the
list of the addresses where T differs from the table of R45, in one canonical form. There is no write (R31).
-/

namespace Sys2Proof.Machine

/-! The table of R45. PRESUMED (log entry 2; unsafe): the spec itself marks it as general knowledge; the source
fixes only eight entries and three relations of it (R34, R35). -/

/-- Row 0x00 of the table of R45. -/
def tableRow0 : List Byte :=
  [0x62, 0x06, 0x55, 0x96, 0x24, 0x17, 0x70, 0xa4, 0x87, 0xcf, 0xa9, 0x05, 0x1a, 0x40, 0xa5, 0xdb]

/-- Row 0x10 of the table of R45. -/
def tableRow1 : List Byte :=
  [0x3d, 0x14, 0x44, 0x59, 0x82, 0x3f, 0x34, 0x66, 0x18, 0xe5, 0x84, 0xf5, 0x50, 0xd8, 0xc3, 0x73]

/-- Row 0x20 of the table of R45. -/
def tableRow2 : List Byte :=
  [0x5a, 0xa8, 0x9c, 0xcb, 0xb1, 0x78, 0x02, 0xbe, 0xbc, 0x07, 0x64, 0xb9, 0xae, 0xf3, 0xa2, 0x0a]

/-- Row 0x30 of the table of R45. -/
def tableRow3 : List Byte :=
  [0xed, 0x12, 0xfd, 0xe1, 0x08, 0xd0, 0xac, 0xf4, 0xff, 0x7e, 0x65, 0x4f, 0x91, 0xeb, 0xe4, 0x79]

/-- Row 0x40 of the table of R45. -/
def tableRow4 : List Byte :=
  [0x7b, 0xfb, 0x43, 0xfa, 0xa1, 0x00, 0x6b, 0x61, 0xf1, 0x6f, 0xb5, 0x52, 0xf9, 0x21, 0x45, 0x37]

/-- Row 0x50 of the table of R45. -/
def tableRow5 : List Byte :=
  [0x3b, 0x99, 0x1d, 0x09, 0xd5, 0xa7, 0x54, 0x5d, 0x1e, 0x2e, 0x5e, 0x4b, 0x97, 0x72, 0x49, 0xde]

/-- Row 0x60 of the table of R45. -/
def tableRow6 : List Byte :=
  [0xc5, 0x60, 0xd2, 0x2d, 0x10, 0xe3, 0xf8, 0xca, 0x33, 0x98, 0xfc, 0x7d, 0x51, 0xce, 0xd7, 0xba]

/-- Row 0x70 of the table of R45. -/
def tableRow7 : List Byte :=
  [0x27, 0x9e, 0xb2, 0xbb, 0x83, 0x88, 0x01, 0x31, 0x32, 0x11, 0x8d, 0x5b, 0x2f, 0x81, 0x3c, 0x63]

/-- Row 0x80 of the table of R45. -/
def tableRow8 : List Byte :=
  [0x9a, 0x23, 0x56, 0xab, 0x69, 0x22, 0x26, 0xc8, 0x93, 0x3a, 0x4d, 0x76, 0xad, 0xf6, 0x4c, 0xfe]

/-- Row 0x90 of the table of R45. -/
def tableRow9 : List Byte :=
  [0x85, 0xe8, 0xc4, 0x90, 0xc6, 0x7c, 0x35, 0x04, 0x6c, 0x4a, 0xdf, 0xea, 0x86, 0xe6, 0x9d, 0x8b]

/-- Row 0xa0 of the table of R45. -/
def tableRowA : List Byte :=
  [0xbd, 0xcd, 0xc7, 0x80, 0xb0, 0x13, 0xd3, 0xec, 0x7f, 0xc0, 0xe7, 0x46, 0xe9, 0x58, 0x92, 0x2c]

/-- Row 0xb0 of the table of R45. -/
def tableRowB : List Byte :=
  [0xb7, 0xc9, 0x16, 0x53, 0x0d, 0xd6, 0x74, 0x6d, 0x9f, 0x20, 0x5f, 0xe2, 0x8c, 0xdc, 0x39, 0x0c]

/-- Row 0xc0 of the table of R45. -/
def tableRowC : List Byte :=
  [0xdd, 0x1f, 0xd1, 0xb6, 0x8f, 0x5c, 0x95, 0xb8, 0x94, 0x3e, 0x71, 0x41, 0x25, 0x1b, 0x6a, 0xa6]

/-- Row 0xd0 of the table of R45. -/
def tableRowD : List Byte :=
  [0x03, 0x0e, 0xcc, 0x48, 0x15, 0x29, 0x38, 0x42, 0x1c, 0xc1, 0x28, 0xd9, 0x19, 0x36, 0xb3, 0x75]

/-- Row 0xe0 of the table of R45. -/
def tableRowE : List Byte :=
  [0xee, 0x57, 0xf0, 0x9b, 0xb4, 0xaa, 0xf2, 0xd4, 0xbf, 0xa3, 0x4e, 0xda, 0x89, 0xc2, 0xaf, 0x6e]

/-- Row 0xf0 of the table of R45. -/
def tableRowF : List Byte :=
  [0x2b, 0x77, 0xe0, 0x47, 0x7a, 0x8e, 0x2a, 0xa0, 0x68, 0x30, 0xf7, 0x67, 0x0f, 0x0b, 0x8a, 0xef]

/-- The table of R45, address 0 first. -/
def recommendedTable : List Byte :=
  tableRow0 ++ tableRow1 ++ tableRow2 ++ tableRow3 ++
  tableRow4 ++ tableRow5 ++ tableRow6 ++ tableRow7 ++
  tableRow8 ++ tableRow9 ++ tableRowA ++ tableRowB ++
  tableRowC ++ tableRowD ++ tableRowE ++ tableRowF

/-- The byte an address reads as when the list holds no entry for it: the table of R45 (log entry 2). -/
def unlistedByte (a : Addr) : Byte := recommendedTable.getD a.toNat 0

/-- `MemRead(a, 1)`, also written `T[a]` (R7): one byte, at any of the 256 addresses (R30, R32). -/
def Memory.read (m : List Host.Cell) (a : Addr) : Byte :=
  match m.find? (fun c => c.1 == a.toNat) with
  | some c => c.2
  | none => unlistedByte a

/-- Addresses strictly rising, each at least `low`. -/
def Memory.risingFrom (low : Nat) : List Host.Cell → Bool
  | [] => true
  | c :: m => decide (low ≤ c.1) && Memory.risingFrom (c.1 + 1) m

/-- The canonical form: addresses strictly rising, inside the 256 locations, and no entry equal to what an unlisted
address reads as. -/
def Memory.wf (m : List Host.Cell) : Bool :=
  Memory.risingFrom 0 m && m.all (fun c => decide (c.1 < 256) && decide (c.2 ≠ unlistedByte (BitVec.ofNat 8 c.1)))

/-- The list for the contents `T` at the addresses `start, start + 1, …`, `n` of them. -/
def Memory.cellsFrom (T : Addr → Byte) (start : Nat) : Nat → List Host.Cell
  | 0 => []
  | n + 1 =>
    if T (BitVec.ofNat 8 start) = unlistedByte (BitVec.ofNat 8 start) then Memory.cellsFrom T (start + 1) n
    else (start, T (BitVec.ofNat 8 start)) :: Memory.cellsFrom T (start + 1) n

/-- The contents `T` in canonical form: every table the parameter may be (R5, R36) is a memory of the model. -/
def Memory.ofTable (T : Addr → Byte) : List Host.Cell := Memory.cellsFrom T 0 256

end Sys2Proof.Machine
end

