-- ==== Sys2Proof/Machine/Operands.lean ====
section
/-!
DEFINITION. The operand forms and the address arithmetic of the block: the number of lanes and its strap (spec/10_state.md
R17, spec/30_encoding.md R62), the two ROM addressing modes of ABSORB (R53, spec/40_absorb.md R68, R74) and the
addresses one ABSORB reads (spec/20_memory.md R37).
-/

namespace Sys2Proof

/-- W, the number of lanes and of digest bytes (R5). -/
def Width.lanes : Width → Nat
  | .one => 1
  | .two => 2
  | .three => 3

/-- The strap of a width: "holds `W` as a plain binary number" (R62). -/
def Width.strap : Width → BitVec 2
  | .one => 0b01
  | .two => 0b10
  | .three => 0b11

/-- The width of a strap; "the value 0b00 is illegal" (R62). -/
def Width.ofStrap (c : BitVec 2) : Option Width :=
  if c = 0b01#2 then some .one
  else if c = 0b10#2 then some .two
  else if c = 0b11#2 then some .three
  else none

namespace Machine

/-- Seed mode: "the low 8 bits of the 9-bit sum `zext_9(b) + i`, that is `(b + i) mod 256`" (R53). -/
def seedAddress (b : Byte) (i : Nat) : Addr := (b.setWidth 9 + BitVec.ofNat 9 i).setWidth 8

/-- Fold mode: "the ROM index in the fold step is `b` itself" (R53). -/
def foldAddress (b : Byte) : Addr := b

/-- The addresses an ABSORB of `b` reads: one a lane in AwaitingFirstByte, the single address `b` in Streaming (R37). -/
def absorbReads (w : Width) (m : Mode) (b : Byte) : List Addr :=
  match m with
  | .awaitingFirstByte => (List.range w.lanes).map (seedAddress b)
  | .streaming => [foldAddress b]

/-- The constant BLOCK_SIZE, "hardwired" to 1 (R17, R85). -/
def blockSize : Byte := 1

/-- The byte SIZE answers, `zext_8(W)` (R84). -/
def widthByte (w : Width) : Byte := w.strap.setWidth 8

end Machine

end Sys2Proof
end

