-- ==== Sys2Proof/Machine/Ops.lean ====
section
/-!
DEFINITION. The shared operations over the ROM, the lanes and the output pins (spec/00_scope.md R7), and reset_logic
(spec/70_reset_and_hazards.md R111). There is no exception to take and none to return from (spec/60_exceptions.md R100,
R106), so no operation stands here for either.
-/

namespace Sys2Proof.Machine

/-- `T[a]` of this instance (R7). -/
def State.romByte (s : State) (a : Addr) : Byte := Memory.read s.rom a

/-- `acc[i]` (R7). DESIGN CHOICE (log entry 5; safe): a lane that does not exist reads as 0, as its byte of the
response bus does (R12); the commands read lanes 0..W-1 only. -/
def State.lane (s : State) (i : Nat) : Byte := s.acc.getD i 0

/-- "for i in 0..W-1: acc[i] <- v i": all lanes written together (R7, R72); no command writes one alone (R13). -/
def State.writeLanes (v : Nat → Byte) (s : State) : State :=
  { s with acc := (List.range s.width.lanes).map v }

/-- The digest `[acc[0], ..., acc[W-1]]` (R8, R82). -/
def State.digest (s : State) : List Byte := (List.range s.width.lanes).map s.lane

/-- The response bus: byte k on `rsp_data[8k+7 : 8k]`, the positions past the response 0 (R56). -/
def packBus (bytes : List Byte) : BitVec 24 := bytes.getD 2 0 ++ bytes.getD 1 0 ++ bytes.getD 0 0

/-- The outputs of a step that responds with `bytes`, 1 to 3 of them (R51, R55, R56). -/
def respondingOut (bytes : List Byte) : PortOut :=
  { cmdReady := true, rspValid := true, rspLen := BitVec.ofNat 2 bytes.length, rspData := packBus bytes }

/-- The outputs of a step outside HardReset that responds with nothing (R51, R56, R121). -/
def quietOut : PortOut := { cmdReady := true, rspValid := false, rspLen := 0, rspData := 0 }

/-- The outputs of a HardReset step (R114). -/
def resetOut : PortOut := { cmdReady := false, rspValid := false, rspLen := 0, rspData := 0 }

/-- The transaction-level response the output pins carry: `rsp_len` bytes, byte k from `rsp_data[8k+7 : 8k]`
(R55, R56); none when there is no response. -/
def PortOut.response (o : PortOut) : List Byte :=
  (List.range o.rspLen.toNat).map (fun k => o.rspData.extractLsb' (8 * k) 8)

/-- `respond(len, bytes)` (R7, R55). -/
def State.respond (bytes : List Byte) (s : State) : State := { s with out := respondingOut bytes }

/-- A step outside HardReset without a response (R55). -/
def State.quiet (s : State) : State := { s with out := quietOut }

/-- "for i in 0..W-1: acc[i] <- 0x00; mode <- AwaitingFirstByte": the effect SRESET and HardReset share (R81, R111,
R113). -/
def State.clear (s : State) : State := (s.writeLanes (fun _ => 0)).setMode .awaitingFirstByte

/-- HardReset (R111), with the outputs of its step (R114). -/
def State.hardReset (s : State) : State := { s.clear with out := resetOut }

/-- The state a constructor leaves: an instance of width `w` and table `rom` after HardReset (R90, R111). -/
def State.initial (w : Width) (rom : List Host.Cell) : State where
  width := w
  rom := rom
  acc := List.replicate w.lanes 0
  mode := .awaitingFirstByte
  inputs := []
  out := resetOut

end Sys2Proof.Machine
end

