-- ==== Sys2Proof/Machine/Control.lean ====
section
/-!
DEFINITION. The control commands: NOP and SRESET (spec/41_control_and_query.md R80, R81).
-/

namespace Sys2Proof.Machine

/-- NOP (R80): "no state is read, none is written", and no response. -/
def execNop (s : State) : Host.Outcome State Fault Refusal := .next s.quiet

/-- SRESET (R81): the lanes are zeroed and the first byte is awaited, from either mode; no response. -/
def execSreset (s : State) : Host.Outcome State Fault Refusal := .next s.clear.quiet

end Sys2Proof.Machine
end

