-- ==== Sys2Proof/Machine/Query.lean ====
section
/-!
DEFINITION. The query commands: SUM, SIZE and BSIZE (spec/41_control_and_query.md R82 to R85). None writes the lanes or
the flag.
-/

namespace Sys2Proof.Machine

/-- SUM (R82): respond with the W lanes, lane 0 first; in AwaitingFirstByte too (R83). -/
def execSum (s : State) : Host.Outcome State Fault Refusal := .next (s.respond s.digest)

/-- SIZE (R84): respond with the one byte `zext_8(W)`. -/
def execSize (s : State) : Host.Outcome State Fault Refusal := .next (s.respond [widthByte s.width])

/-- BSIZE (R85): respond with the one byte 1. -/
def execBsize (s : State) : Host.Outcome State Fault Refusal := .next (s.respond [blockSize])

end Sys2Proof.Machine
end

