-- ==== Sys2Proof/Machine/Update.lean ====
section
/-!
DEFINITION. The update family: ABSORB (spec/40_absorb.md R69 to R73).
-/

namespace Sys2Proof.Machine

/-- The seed step (R70): every lane is overwritten from the table at `(b + i) mod 256`, and `mode <- Streaming`. -/
def State.seedStep (b : Byte) (s : State) : State :=
  ((s.writeLanes (fun i => s.romByte (seedAddress b i))).setMode .streaming).quiet

/-- The fold step (R71): the one byte `T[b]` is XORed into every lane; the old lane value is no index (corner case 1,
spec/90_conflicts.md C3). -/
def State.foldStep (b : Byte) (s : State) : State :=
  ((s.writeLanes (fun i => s.lane i ^^^ s.romByte (foldAddress b))).setMode .streaming).quiet

/-- ABSORB b (R69): "the choice is made on the value of `mode` before the step". -/
def execAbsorb (b : Byte) (s : State) : Host.Outcome State Fault Refusal :=
  match s.mode with
  | .awaitingFirstByte => .next (s.seedStep b)
  | .streaming => .next (s.foldStep b)

end Sys2Proof.Machine
end

