-- ==== Sys2Proof/Syntax.lean ====
section
/-!
DEFINITION. The commands of the block: one constructor for each row of spec/opcode_table.json
(spec/30_encoding.md R52).
-/

namespace Sys2Proof

/-- The six commands (R2, R52). ABSORB is the only one with an operand; on the others `din` is "simply not
looked at" (R54), so they carry none. -/
inductive Instr where
  /-- NOP: do nothing (R80). -/
  | nop
  /-- ABSORB b: absorb one input byte, `b = din` (R69). -/
  | absorb (b : Byte)
  /-- SRESET: zero the lanes, await the first byte (R81). -/
  | sreset
  /-- SUM: respond with the digest (R82). -/
  | sum
  /-- SIZE: respond with W (R84). -/
  | size
  /-- BSIZE: respond with the block size, 1 (R85). -/
  | bsize
deriving DecidableEq, Repr

end Sys2Proof
end

