-- ==== Sys2Proof/Machine/Dispatch.lean ====
section
/-!
DEFINITION. One arm per command: the meaning of each (spec/30_encoding.md R52).
-/

namespace Sys2Proof.Machine

def exec (i : Instr) (s : State) : Host.Outcome State Fault Refusal :=
  match i with
  | .nop => Sys2Proof.Machine.execNop s
  | .absorb b => Sys2Proof.Machine.execAbsorb b s
  | .sreset => Sys2Proof.Machine.execSreset s
  | .sum => Sys2Proof.Machine.execSum s
  | .size => Sys2Proof.Machine.execSize s
  | .bsize => Sys2Proof.Machine.execBsize s

end Sys2Proof.Machine
end

