-- ==== Sys2Proof/Decode.lean ====
section
/-!
DEFINITION. The decoder of the 11-bit command word and, after it, the encoder, both written from the opcode map
(spec/30_encoding.md R50, R52, R53, R54, R57).
-/

namespace Sys2Proof

/-- Why a word spells no command. -/
inductive DecodeError where
  /-- `op` is 0b110 or 0b111 (R57). -/
  | reservedOpcode (op : BitVec 3)
deriving DecidableEq, Repr

/-- `op = cmd[10:8]` (R50). -/
def opField (w : CmdWord) : BitVec 3 := w.extractLsb' 8 3

/-- `din = cmd[7:0]` (R50). -/
def dinField (w : CmdWord) : Byte := w.extractLsb' 0 8

/-- The decoder, total on all 2048 words: "a decoder reads `op` and is done" (R50, R52). -/
def decode (w : CmdWord) : Except DecodeError Instr :=
  if opField w = 0b000#3 then .ok .nop
  else if opField w = 0b001#3 then .ok (.absorb (dinField w))
  else if opField w = 0b010#3 then .ok .sreset
  else if opField w = 0b011#3 then .ok .sum
  else if opField w = 0b100#3 then .ok .size
  else if opField w = 0b101#3 then .ok .bsize
  else .error (.reservedOpcode (opField w))

/-- The command word `{op, din}` (R50). -/
def cmdWord (op : BitVec 3) (din : Byte) : CmdWord := op ++ din

/-- The canonical word of a command; "the canonical encoding, which an assembler emits, has `din = 0`" (R54). -/
def encode : Instr → CmdWord
  | .nop => cmdWord 0b000 0
  | .absorb b => cmdWord 0b001 b
  | .sreset => cmdWord 0b010 0
  | .sum => cmdWord 0b011 0
  | .size => cmdWord 0b100 0
  | .bsize => cmdWord 0b101 0

/-- `mask` of the opcode map (R52), the same in every row. -/
def tableMask : CmdWord := 0x700

/-- `match` of a command's row in the opcode map (R52). -/
def tableMatch : Instr → CmdWord
  | .nop => 0x000
  | .absorb _ => 0x100
  | .sreset => 0x200
  | .sum => 0x300
  | .size => 0x400
  | .bsize => 0x500

/-- What the host's row reader asks: the command of a word given as a number with bit 0 its least significant
bit, of which `nbits` bits count. DESIGN CHOICE (log entry 10; safe): a number that does not fit the 11 bits of the
port spells no command. -/
def decodeTableWord (nbits w : Nat) : Option Instr :=
  let v := w % 2 ^ nbits
  if v < 2 ^ 11 then
    match decode (BitVec.ofNat 11 v) with
    | .ok i => some i
    | .error _ => none
  else none

end Sys2Proof
end

