-- ==== Sys2Proof/Machine/Port.lean ====
section
/-!
DEFINITION. The command port (spec/30_encoding.md R51, R57, R59, R62; spec/70_reset_and_hazards.md R112, R118): what the
outside presents at a step, and what the step then is.
-/

namespace Sys2Proof.Machine

/-- What one step is (R8, "step": "the execution of one command, or of HardReset"; R59 the step without a command). -/
inductive PortEvent where
  | hardReset
  | noCommand
  | command (i : Instr)
deriving DecidableEq, Repr

/-- The pins of a step that presents the word `c` to an instance of width `w`. -/
def StepInput.word (w : Width) (c : CmdWord) : StepInput :=
  { rst := false, cfgWidth := w.strap, cmdValid := true, cmd := c, otherDriver := false }

/-- The pins of a step that presents the command `i` (R50, R54). -/
def StepInput.command (w : Width) (i : Instr) : StepInput := StepInput.word w (encode i)

/-- The pins of a step without a command: `cmd_valid = 0` and `rst = 0` (R59). -/
def StepInput.idle (w : Width) : StepInput :=
  { rst := false, cfgWidth := w.strap, cmdValid := false, cmd := 0, otherDriver := false }

/-- The pins of a HardReset step (R51, R111). -/
def StepInput.hardReset (w : Width) : StepInput :=
  { rst := true, cfgWidth := w.strap, cmdValid := false, cmd := 0, otherDriver := false }

/-- The pins as the outside drives them in the coming step. DESIGN CHOICE (log entry 3; safe): when nothing is left
to present, no command is presented (R59, R123). -/
def State.pins (s : State) : StepInput :=
  match s.inputs with
  | [] => StepInput.idle s.width
  | p :: _ => p

/-- The step has taken the pins it read. -/
def State.takePins (s : State) : State := { s with inputs := s.inputs.tail }

/-- The instance with `ins` as all that the outside will present. -/
def State.presenting (ins : List StepInput) (s : State) : State := { s with inputs := ins }

/-- What a step with pins `p` is, for an instance of width `w`. The strap is checked first (R62), then the single
driver (R118), then that no reserved word is presented (R57, R98), all three in every step, a HardReset step included (log
entries 6 to 8). Then HardReset wins over a presented command, which is dropped (R51, R104, R112). With `cmd_valid = 0`
no word is presented (R51, R59), and `cmd` is not decoded. -/
def portEvent (w : Width) (p : StepInput) : Except Refusal PortEvent :=
  match Width.ofStrap p.cfgWidth with
  | none => .error .illegalStrap
  | some v =>
    if v ≠ w then .error .strapChanged
    else if p.otherDriver then .error .secondDriver
    else if p.cmdValid then
      match decode p.cmd with
      | .error (.reservedOpcode op) => .error (.reservedOpcode op)
      | .ok i => .ok (if p.rst then .hardReset else .command i)
    else .ok (if p.rst then .hardReset else .noCommand)

/-- A step without a command: "the state is held, nothing responds" (R59). -/
def State.holdWithoutCommand (s : State) : State := s.quiet

end Sys2Proof.Machine
end

