-- ==== Sys2Proof/Machine/Step.lean ====
section
/-!
DEFINITION. One step (spec/00_scope.md R8, R9; spec/70_reset_and_hazards.md R122): the pins are read and the step is a
HardReset, a step without a command, one command, or a refusal (R110).
-/

namespace Sys2Proof.Machine

/-- One step of the block on the pins the outside drives. -/
def step (s : State) : Host.Outcome State Fault Refusal :=
  match portEvent s.width s.pins with
  | .error r => .refused r
  | .ok .hardReset => .next s.takePins.hardReset
  | .ok .noCommand => .next s.takePins.holdWithoutCommand
  | .ok (.command i) => exec i s.takePins

/-- `s` with the command word `w` (of which `nbits` bits count, and of those the 11 the port has) presented in the
very next step (log entry 10). The block holds no program (R16): presenting the word at the port is all a command
needs (log entry 3). -/
def State.withFetchWord (s : State) (nbits w : Nat) : State :=
  { s with inputs := StepInput.word s.width (BitVec.ofNat 11 (w % 2 ^ nbits)) :: s.inputs }

end Sys2Proof.Machine
end

