-- ==== Sys2Proof/WellFormed.lean ====
section
/-!
DEFINITION. The checks on what the outside may hand the block. The types of Syntax.lean leave no ill-formed
command: "every 8-bit `din` is a valid byte" (spec/40_absorb.md R69). What can be ill-formed is a command word
(R57), a strap value (R62) and a number written for a byte (R60).
-/

namespace Sys2Proof

/-- A command is well-formed for every operand: R58, "each is defined in both modes, for every `din`". -/
def Instr.wellFormed : Instr → Bool
  | .nop => true
  | .absorb _ => true
  | .sreset => true
  | .sum => true
  | .size => true
  | .bsize => true

/-- A command word spells a command when its opcode is not one of the two reserved ones, 6 and 7 (R52, R57). -/
def cmdWordWellFormed (w : CmdWord) : Bool := decide ((w >>> 8).toNat < 6)

/-- A strap value is legal when it is not 0 (R62). -/
def strapWellFormed (c : BitVec 2) : Bool := decide (c ≠ 0)

/-- A number written as a byte operand is 0..255 (R60). -/
def byteNumberWellFormed (n : Nat) : Bool := decide (n < 256)

end Sys2Proof
end

