-- ==== Sys2Proof/Machine/Assembly.lean ====
section
/-!
DEFINITION. The assembly syntax (spec/30_encoding.md R60): a line of text to a command or directive and back, and a program
to the width and the pins it stands for. Text is a list of characters. What R60 leaves open is in log entry 14.
-/

namespace Sys2Proof.Machine

/-- One line of a program (R60). -/
inductive AsmLine where
  /-- `.width <1|2|3>` -/
  | width (w : Width)
  /-- `.hardreset`: a HardReset step -/
  | hardreset
  /-- a command, with the response written after `->`, if one is written -/
  | command (i : Instr) (response : Option (List Byte))
deriving DecidableEq, Repr

/-- A token of a line. -/
inductive AsmToken where
  | word (cs : List Char)
  | quoted (c : Char)
deriving DecidableEq, Repr

/-- Where the reader of a line stands. -/
inductive AsmScan where
  | between
  | inWord (backwards : List Char)
  | afterQuote
  | afterQuotedChar (c : Char)
deriving DecidableEq, Repr

/-- The single quote. -/
def asmQuote : Char := Char.ofNat 39

/-- Blank space between tokens: space and tab (log entry 14). -/
def asmBlank (c : Char) : Bool := c == ' ' || c == Char.ofNat 9

/-- The tokens of a line; "a comment runs from `;` to the end of the line" (R60). -/
def asmTokens : AsmScan → List Char → Option (List AsmToken)
  | .between, [] => some []
  | .inWord r, [] => some [.word r.reverse]
  | .afterQuote, [] => none
  | .afterQuotedChar _, [] => none
  | .between, c :: cs =>
    if c = ';' then some []
    else if asmBlank c then asmTokens .between cs
    else if c = asmQuote then asmTokens .afterQuote cs
    else asmTokens (.inWord [c]) cs
  | .inWord r, c :: cs =>
    if c = ';' then some [.word r.reverse]
    else if asmBlank c then (asmTokens .between cs).map (fun ts => .word r.reverse :: ts)
    else asmTokens (.inWord (c :: r)) cs
  | .afterQuote, c :: cs => asmTokens (.afterQuotedChar c) cs
  | .afterQuotedChar q, c :: cs =>
    if c = asmQuote then (asmTokens .between cs).map (fun ts => .quoted q :: ts) else none

/-- The value of a digit in either base; letters of either case (log entry 14). -/
def digitValue (base : Nat) (c : Char) : Option Nat :=
  let n := c.toNat
  let v :=
    if 48 ≤ n ∧ n ≤ 57 then n - 48
    else if 97 ≤ n ∧ n ≤ 102 then n - 87
    else if 65 ≤ n ∧ n ≤ 70 then n - 55
    else base
  if v < base then some v else none

/-- The number a run of digits writes, after the digits read so far. -/
def digitsValue (base soFar : Nat) : List Char → Option Nat
  | [] => some soFar
  | c :: cs =>
    match digitValue base c with
    | some v => digitsValue base (soFar * base + v) cs
    | none => none

/-- "a number 0..255 in decimal or `0x` hexadecimal" (R60), before the range check. -/
def numberValue : List Char → Option Nat
  | [] => none
  | '0' :: 'x' :: c :: cs => digitsValue 16 0 (c :: cs)
  | cs => digitsValue 10 0 cs

/-- `<byte>`: a number 0..255 or "a single ASCII character in single quotes" (R60). -/
def byteOperand : AsmToken → Option Byte
  | .word cs =>
    match numberValue cs with
    | some n => if byteNumberWellFormed n then some (BitVec.ofNat 8 n) else none
    | none => none
  | .quoted c => if c.toNat < 128 then some (BitVec.ofNat 8 c.toNat) else none

/-- A byte of a response, in hexadecimal (R60), of exactly two digits (log entry 14). -/
def responseByte : AsmToken → Option Byte
  | .word [c, d] => (digitsValue 16 0 [c, d]).map (BitVec.ofNat 8)
  | _ => none

/-- The bytes of a response. -/
def responseBytes : List AsmToken → Option (List Byte)
  | [] => some []
  | t :: ts =>
    match responseByte t, responseBytes ts with
    | some b, some bs => some (b :: bs)
    | _, _ => none

/-- What may stand after a command: nothing, or `->` and its response (R60). DESIGN CHOICE (log entry 14; safe): any command
may carry one, of any number of bytes, whether or not the command responds. -/
def responseColumn : List AsmToken → Option (Option (List Byte))
  | [] => some none
  | t :: ts => if t = .word ['-', '>'] then (responseBytes ts).map some else none

/-- The text of a mnemonic (R52). -/
def Instr.mnemonicText : Instr → List Char
  | .nop => ['N', 'O', 'P']
  | .absorb _ => ['A', 'B', 'S', 'O', 'R', 'B']
  | .sreset => ['S', 'R', 'E', 'S', 'E', 'T']
  | .sum => ['S', 'U', 'M']
  | .size => ['S', 'I', 'Z', 'E']
  | .bsize => ['B', 'S', 'I', 'Z', 'E']

/-- The directive `.hardreset`. -/
def hardresetText : List Char := ['.', 'h', 'a', 'r', 'd', 'r', 'e', 's', 'e', 't']

/-- The directive `.width`. -/
def widthText : List Char := ['.', 'w', 'i', 'd', 't', 'h']

/-- The width a `.width` directive states. -/
def widthOperand (t : AsmToken) : Option Width :=
  if t = .word ['1'] then some .one
  else if t = .word ['2'] then some .two
  else if t = .word ['3'] then some .three
  else none

/-- The line its tokens spell: `none` where they spell nothing, `some none` for a line without a command.
DESIGN CHOICE (log entry 14; safe): R60 does not say whether a directive line may carry a `->` response column; in the model
`.hardreset` and `.width` may not, and such a line is refused. -/
def asmLineOfTokens : List AsmToken → Option (Option AsmLine)
  | [] => some none
  | .quoted _ :: _ => none
  | .word m :: ts =>
    if m = hardresetText then (if ts = [] then some (some .hardreset) else none)
    else if m = widthText then
      match ts with
      | [t] => (widthOperand t).map (fun w => some (.width w))
      | _ => none
    else if m = Instr.mnemonicText (.absorb 0) then
      match ts with
      | t :: rest =>
        match byteOperand t, responseColumn rest with
        | some b, some r => some (some (.command (.absorb b) r))
        | _, _ => none
      | [] => none
    else if m = Instr.mnemonicText .nop then (responseColumn ts).map (fun r => some (.command .nop r))
    else if m = Instr.mnemonicText .sreset then (responseColumn ts).map (fun r => some (.command .sreset r))
    else if m = Instr.mnemonicText .sum then (responseColumn ts).map (fun r => some (.command .sum r))
    else if m = Instr.mnemonicText .size then (responseColumn ts).map (fun r => some (.command .size r))
    else if m = Instr.mnemonicText .bsize then (responseColumn ts).map (fun r => some (.command .bsize r))
    else none

/-- One line of text (R60). -/
def parseAsmLine (cs : List Char) : Option (Option AsmLine) :=
  match asmTokens .between cs with
  | some ts => asmLineOfTokens ts
  | none => none

/-- A program text, "one command per line" (R60). -/
def parseAsm : List (List Char) → Option (List AsmLine)
  | [] => some []
  | l :: ls =>
    match parseAsmLine l, parseAsm ls with
    | some (some x), some xs => some (x :: xs)
    | some none, some xs => some xs
    | _, _ => none

/-- A hexadecimal digit, lower case. -/
def hexDigit (n : Nat) : Char := if n < 10 then Char.ofNat (48 + n) else Char.ofNat (87 + n)

/-- A byte as two hexadecimal digits. -/
def hexByte (b : Byte) : List Char := [hexDigit (b.toNat / 16), hexDigit (b.toNat % 16)]

/-- A command as text (R60). -/
def renderInstr : Instr → List Char
  | .absorb b => Instr.mnemonicText (.absorb b) ++ [' ', '0', 'x'] ++ hexByte b
  | .nop => Instr.mnemonicText .nop
  | .sreset => Instr.mnemonicText .sreset
  | .sum => Instr.mnemonicText .sum
  | .size => Instr.mnemonicText .size
  | .bsize => Instr.mnemonicText .bsize

/-- A response as text, after `->` (R60). -/
def renderResponse : Option (List Byte) → List Char
  | none => []
  | some bs => [' ', '-', '>'] ++ (bs.map (fun b => ' ' :: hexByte b)).flatten

/-- A line as text (R60). -/
def AsmLine.render : AsmLine → List Char
  | .width .one => widthText ++ [' ', '1']
  | .width .two => widthText ++ [' ', '2']
  | .width .three => widthText ++ [' ', '3']
  | .hardreset => hardresetText
  | .command i r => renderInstr i ++ renderResponse r

/-- The pins a program's lines stand for, after its `.width`: a second `.width` is refused (log entry
14). -/
def asmInputs (w : Width) : List AsmLine → Option (List StepInput)
  | [] => some []
  | .width _ :: _ => none
  | .hardreset :: ls => (asmInputs w ls).map (fun ps => StepInput.hardReset w :: ps)
  | .command i _ :: ls => (asmInputs w ls).map (fun ps => StepInput.command w i :: ps)

/-- A program: `.width` "at the head of a program states `W`" (R60); the instance it is for, with its pins. A program
without `.width` is refused (log entry 14). -/
def asmProgram (rom : List Host.Cell) : List AsmLine → Option State
  | .width w :: ls => (asmInputs w ls).map (fun ps => (State.initial w rom).presenting ps)
  | _ => none

end Sys2Proof.Machine
end

