-- ==== Sys2Proof/Machine/HostOps.lean ====
section
/-!
DEFINITION. The source's operations as host pseudo-operations (spec/30_encoding.md R61, spec/42_host_operations.md R90 to
R97): which commands the host issues for each, and what it makes of the responses.
-/

namespace Sys2Proof.Machine

/-- A command sequence, executed in the order given (spec/20_memory.md R40). -/
def execAll : List Instr → State → Host.Outcome State Fault Refusal
  | [], s => .next s
  | i :: rest, s =>
    match exec i s with
    | .next t => execAll rest t
    | .fault r => .fault r
    | .refused r => .refused r

/-- `NewHasher8()`: an instance with W = 1 after HardReset (R90). -/
def newHasher8 (rom : List Host.Cell) : State := State.initial .one rom

/-- `NewHasher16()`: an instance with W = 2 after HardReset (R90). -/
def newHasher16 (rom : List Host.Cell) : State := State.initial .two rom

/-- `NewHasher24()`: an instance with W = 3 after HardReset (R90). -/
def newHasher24 (rom : List Host.Cell) : State := State.initial .three rom

/-- The source's operations on a hasher (R61). -/
inductive HostOp where
  /-- `Write(bytes)` (R91) -/
  | write (bytes : List Byte)
  /-- `Sum(buffer)`, the bytes the digest is appended to (R94) -/
  | sum (buffer : List Byte)
  /-- `Reset()` (R95) -/
  | reset
  /-- `Size()` (R96) -/
  | size
  /-- `BlockSize()` (R96) -/
  | blockSize
deriving DecidableEq, Repr

/-- What an operation returns to its caller. -/
inductive HostResult where
  /-- the "count of bytes consumed" (R93) -/
  | count (n : Nat)
  /-- a byte sequence (R94) -/
  | bytes (bs : List Byte)
  /-- nothing (R95) -/
  | nothing
  /-- an integer (R96) -/
  | int (n : Nat)
deriving DecidableEq, Repr

/-- The expansion into commands (R61); an empty Write issues none (R92). -/
def HostOp.commands : HostOp → List Instr
  | .write bs => bs.map Instr.absorb
  | .sum _ => [.sum]
  | .reset => [.sreset]
  | .size => [.size]
  | .blockSize => [.bsize]

/-- What the host returns, from the outputs of the last step of the expansion. The count of a Write is the number of
ABSORBs accepted (R93); the buffer of a Sum never reaches the block (R94). -/
def HostOp.result (op : HostOp) (out : PortOut) : HostResult :=
  match op with
  | .write bs => .count (HostOp.commands (.write bs)).length
  | .sum buffer => .bytes (buffer ++ out.response)
  | .reset => .nothing
  | .size => .int (out.response.headD 0).toNat
  | .blockSize => .int (out.response.headD 0).toNat

/-- One operation on an instance. -/
def HostOp.run (op : HostOp) (s : State) : Host.Outcome (State × HostResult) Fault Refusal :=
  match execAll op.commands s with
  | .next t => .next (t, op.result t.out)
  | .fault r => .fault r
  | .refused r => .refused r

/-- A sequence of operations on an instance, with their results in order (R97). -/
def runHostOps : List HostOp → State → Host.Outcome (State × List HostResult) Fault Refusal
  | [], s => .next (s, [])
  | op :: rest, s =>
    match op.run s with
    | .fault r => .fault r
    | .refused r => .refused r
    | .next (t, v) =>
      match runHostOps rest t with
      | .next (u, vs) => .next (u, v :: vs)
      | .fault r => .fault r
      | .refused r => .refused r

/-- The one-shot hash `H_W(X)`: "the response to `SUM` after `HardReset; Write(X)`" (R97). -/
def oneShotHash (w : Width) (rom : List Host.Cell) (x : List Byte) : Host.Outcome (List Byte) Fault Refusal :=
  match execAll (HostOp.commands (.write x) ++ HostOp.commands (.sum [])) (State.initial w rom) with
  | .next t => .next t.out.response
  | .fault r => .fault r
  | .refused r => .refused r

end Sys2Proof.Machine
end

