-- ==== Sys2Proof/Machine/System.lean ====
section
/-!
DEFINITION. Several instances (spec/10_state.md R24, spec/60_exceptions.md R108): "a model of n instances is the product of n
independent models".
-/

namespace Sys2Proof.Machine

/-- `n` instances; widths and tables may differ. -/
abbrev System (n : Nat) := Vector State n

/-- One step of instance `k`; the others hold (R24, R108). DESIGN CHOICE (log entry 16; safe): a refusal of instance `k` is
the outcome of the whole system's step, so a run of the system stops at it and says nothing more of the other instances
either; R108 and R110 leave open what the mark of one instance does to the run of the others. -/
def System.stepAt {n : Nat} (k : Fin n) (sys : System n) : Host.Outcome (System n) Fault Refusal :=
  match step sys[k] with
  | .next t => .next (sys.set k t)
  | .fault r => .fault r
  | .refused r => .refused r

end Sys2Proof.Machine
end

