-- ==== Sys2Proof/Safety.lean ====
section
/-!
DEFINITION. The terms claims are stated in: what a safe input is (spec/60_exceptions.md R110), the invariant of the state
(spec/10_state.md R12, R20; spec/30_encoding.md R56), what a table must satisfy (spec/20_memory.md R33 to R35), and the hash
as the source defines it (spec/40_absorb.md R75), written without the machine's own operations.
-/

namespace Sys2Proof.Machine

/-- The pins of a step the spec gives a meaning, for an instance of width `w`: the strap holds W (R62), one driver
(R118), and a presented word is not reserved (R57, R98), in a HardReset step too (log entry 6). -/
def safeInput (w : Width) (p : StepInput) : Bool :=
  p.cfgWidth == w.strap && !p.otherDriver && (!p.cmdValid || cmdWordWellFormed p.cmd)

/-- Safe pins that make a step a HardReset, whatever command is presented with it, or none (R111, R112). -/
def isHardReset (w : Width) (p : StepInput) : Bool := safeInput w p && p.rst

/-- A run of `k` steps (R123). -/
abbrev runSteps (k : Nat) (s : State) : Host.Outcome State Fault Refusal := Host.Core.run Sys2Proof.core k s

/-- What holds of an instance at all times. -/
structure Invariant (s : State) : Prop where
  /-- the lanes are exactly W (R12) -/
  lanesExist : s.acc.length = s.width.lanes
  /-- "whenever `mode = AwaitingFirstByte`, every lane is zero" (R20) -/
  awaitingMeansZero : s.mode = .awaitingFirstByte → ∀ b ∈ s.acc, b = 0
  /-- the ROM's list is in its canonical form -/
  romCanonical : Memory.wf s.rom = true
  /-- "when `rsp_valid = 0`, `rsp_len = 0` and `rsp_data = 0`" (R56) -/
  quietWhenNotValid : s.out.rspValid = false → s.out.rspLen = 0 ∧ s.out.rspData = 0
  /-- a response has 1 to 3 bytes (R55), so a valid one is not empty -/
  validMeansBytes : s.out.rspValid = true → 1 ≤ s.out.rspLen.toNat
  /-- "the byte positions `k >= rsp_len` are 0" (R56) -/
  restOfBusZero : ∀ k, s.out.rspLen.toNat ≤ k → k < maxLanes → s.out.rspData.extractLsb' (8 * k) 8 = 0
  /-- no response in a HardReset step (R114) -/
  noResponseInReset : s.out.cmdReady = false → s.out.rspValid = false

/-- What a table must satisfy: a permutation (R33; on 256 bytes, injective), the eight pinned entries (R34) and the three
relations (R35). -/
structure AdmissibleTable (T : Addr → Byte) : Prop where
  injective : Function.Injective T
  pinned : T 0x00 = 0x62 ∧ T 0x64 = 0x10 ∧ T 0x65 = 0xe3 ∧ T 0x66 = 0xf8 ∧ T 0x67 = 0xca ∧ T 0x68 = 0x33 ∧
    T 0x70 = 0x27 ∧ T 0xfe = 0x8a
  relationLane0 : T 0x71 ^^^ T 0x75 ^^^ T 0x69 ^^^ T 0x63 ^^^ T 0x6b ^^^ T 0x62 ^^^ T 0x72 ^^^ T 0x77 ^^^ T 0x6e ^^^
    T 0x66 ^^^ T 0x78 = 0x92
  relationLane1 : T 0x71 ^^^ T 0x72 = 0x2c
  relationLane2 : T 0x71 ^^^ T 0x73 = 0x25

/-- The XOR of a byte sequence. -/
def xorAll : List Byte → Byte
  | [] => 0
  | b :: bs => b ^^^ xorAll bs

/-- Lane `i` after a byte sequence: `T[(b0 + i) mod 256] XOR T[b1] XOR ... XOR T[b(k-1)]`, and 0 for k = 0 (R75). -/
def laneHash (T : Addr → Byte) (i : Nat) : List Byte → Byte
  | [] => 0
  | b0 :: rest => T (BitVec.ofNat 8 ((b0.toNat + i) % 256)) ^^^ xorAll (rest.map T)

/-- The digest of a byte sequence, lane 0 first (R75, R97). -/
def hashOf (w : Width) (T : Addr → Byte) (bytes : List Byte) : List Byte :=
  (List.range w.lanes).map (fun i => laneHash T i bytes)

/-- `mode` after a byte sequence since the last reset (R75). -/
def modeAfter : List Byte → Mode
  | [] => .awaitingFirstByte
  | _ :: _ => .streaming

/-- The bytes absorbed since the last reset, after one more step with pins `p`: a HardReset or an SRESET forgets them, an
ABSORB appends its byte (R19, R21, R112), in terms of the opcode map's mask and match (R52). -/
def absorbedBy (soFar : List Byte) (p : StepInput) : List Byte :=
  if p.rst then []
  else if p.cmdValid then
    if p.cmd &&& 0x700 = 0x100 then soFar ++ [p.cmd.setWidth 8]
    else if p.cmd &&& 0x700 = 0x200 then []
    else soFar
  else soFar

/-- The bytes absorbed since the last reset after the steps with pins `ps`, `soFar` before them. -/
def absorbedSinceReset (soFar : List Byte) : List StepInput → List Byte
  | [] => soFar
  | p :: ps => absorbedSinceReset (absorbedBy soFar p) ps

/-- The commands that write the lanes and the flag (R13, R15). -/
def writesState : Instr → Bool
  | .absorb _ => true
  | .sreset => true
  | .nop => false
  | .sum => false
  | .size => false
  | .bsize => false

/-- Two states that hold the same in the spec's sense: lanes, flag and configuration (R5, R10). -/
def State.sameBlock (s t : State) : Prop :=
  s.width = t.width ∧ s.rom = t.rom ∧ s.acc = t.acc ∧ s.mode = t.mode

end Sys2Proof.Machine
end

