-- ==== Sys2Proof/Certificates/Slice0/Obligations.lean ====
section
/-!
DEFINITION. The statements for the provers. Each docstring names the rule of spec/ it formalises or rests on. A statement
about every state is a statement about every width W and every table T, since both stand in the state (log entries 1, 2).
-/

open Sys2Proof Sys2Proof.Machine

/-! ## Reset -/

/-- R18: "After HardReset, and identically after SRESET, every piece of state has a defined value"; R114: what no reset touches,
and the outputs during a HardReset step. -/
def Obligations.BothResetsLeaveTheStatedValues : Prop :=
  (∀ s : State, isHardReset s.width s.pins = true →
    ∃ t, step s = .next t ∧ t.mode = .awaitingFirstByte ∧ t.acc = List.replicate s.width.lanes 0 ∧
      t.width = s.width ∧ (∀ a, t.romByte a = s.romByte a) ∧
      t.out.cmdReady = false ∧ t.out.rspValid = false ∧ t.out.rspLen = 0 ∧ t.out.rspData = 0) ∧
  ∀ s : State, ∃ t, exec .sreset s = .next t ∧ t.mode = .awaitingFirstByte ∧
    t.acc = List.replicate s.width.lanes 0 ∧ t.width = s.width ∧ ∀ a, t.romByte a = s.romByte a

/-- The state the model starts in is the state a HardReset step leaves of its instance (R18, R111, R114), whatever that
instance held before; that the instance has W = 3 and the table of R45 is the model's choice (log entries 1 and 2). -/
def Obligations.ResetStateIsTheHardResetState : Prop :=
  (∀ s : State, s.width = .three → s.rom = [] → isHardReset s.width s.pins = true →
    step s = .next { State.reset with inputs := s.inputs.tail }) ∧
  (∀ i < State.reset.width.lanes, State.reset.acc[i]? = some 0) ∧ State.reset.acc.length = State.reset.width.lanes

/-- R112: HardReset wins over a presented command, which is dropped; it may last any number of steps, each leaving the same
state; it may come at any time, and what was absorbed before is forgotten: the state left is that of `State.initial`, in which
only W and T of the old state stand. -/
def Obligations.HardResetDropsTheCommandAndForgets : Prop :=
  (∀ (s : State) (p : StepInput) (ps : List StepInput), isHardReset s.width p = true →
    ∃ t, step (s.presenting (p :: ps)) = .next t ∧ t.sameBlock (State.initial s.width s.rom) ∧
      t.inputs = ps ∧ t.out.rspValid = false ∧ t.out.response = []) ∧
  ∀ (s : State) (rs ps : List StepInput), rs ≠ [] → (∀ p ∈ rs, isHardReset s.width p = true) →
    runSteps rs.length (s.presenting (rs ++ ps)) = .next ((State.initial s.width s.rom).presenting ps)

/-! ## The six commands -/

/-- R80: NOP reads and writes no state and has no response; a step with `cmd_valid = 0` is the same; a NOP between two
ABSORBs does not break a byte sequence. -/
def Obligations.NopChangesNothing : Prop :=
  (∀ s : State, ∃ t, exec .nop s = .next t ∧ t.sameBlock s ∧ t.inputs = s.inputs ∧
    t.out.rspValid = false ∧ t.out.response = []) ∧
  (∀ (s : State) (ps : List StepInput),
    step (s.presenting (StepInput.idle s.width :: ps)) = step (s.presenting (StepInput.command s.width .nop :: ps))) ∧
  ∀ (s : State) (b c : Byte), ∃ t, execAll [.absorb b, .nop, .absorb c] s = .next t ∧
    execAll [.absorb b, .absorb c] s = .next t

/-- R81: SRESET and its five corner cases. -/
def Obligations.SresetZeroesTheLanes : Prop :=
  ∀ s : State, ∃ t, exec .sreset s = .next t ∧
    t.mode = .awaitingFirstByte ∧ t.acc.length = s.width.lanes ∧ (∀ i < s.width.lanes, t.acc[i]? = some 0) ∧
    t.width = s.width ∧ t.rom = s.rom ∧ t.inputs = s.inputs ∧ t.out.rspValid = false ∧ t.out.response = [] ∧
    (Invariant s → s.mode = .awaitingFirstByte → t.sameBlock s) ∧
    exec .sreset t = .next t ∧
    (∃ u, step (s.presenting [StepInput.hardReset s.width]) = .next u ∧ u.sameBlock t) ∧
    ∀ b : Byte, ∃ v, exec (.absorb b) t = .next v ∧
      ∀ i < s.width.lanes, v.lane i = s.romByte (BitVec.ofNat 8 ((b.toNat + i) % 256))

/-- R70: the seed step overwrites lane i with `T[(b + i) mod 256]`; with a table without repeated values the lanes are
pairwise distinct after it (corner case 5). -/
def Obligations.SeedStepLoadsEveryLaneFromTheTable : Prop :=
  ∀ (s : State) (b : Byte), s.mode = .awaitingFirstByte → ∃ t, exec (.absorb b) s = .next t ∧
    t.mode = .streaming ∧ t.acc.length = s.width.lanes ∧
    (∀ i < s.width.lanes, t.acc[i]? = some (s.romByte (BitVec.ofNat 8 ((b.toNat + i) % 256)))) ∧
    t.out.rspValid = false ∧ t.out.response = [] ∧
    (Function.Injective s.romByte → ∀ i j, i < s.width.lanes → j < s.width.lanes → t.lane i = t.lane j → i = j)

/-- R71: the fold step XORs `T[b]` into every lane, with its five corner cases: the XOR of two lanes is kept, two fold steps
with one byte cancel, a zero table entry changes no lane and a permutation has exactly one, the mode stays Streaming. -/
def Obligations.FoldStepXorsOneTableByteIntoEveryLane : Prop :=
  (∀ (s : State) (b : Byte), s.mode = .streaming → ∃ t, exec (.absorb b) s = .next t ∧
    t.mode = .streaming ∧ t.acc.length = s.width.lanes ∧
    (∀ i < s.width.lanes, t.acc[i]? = some (s.lane i ^^^ s.romByte b)) ∧
    t.out.rspValid = false ∧ t.out.response = [] ∧
    (∀ i j, i < s.width.lanes → j < s.width.lanes → t.lane i ^^^ t.lane j = s.lane i ^^^ s.lane j) ∧
    (∃ u, exec (.absorb b) t = .next u ∧ ∀ i < s.width.lanes, u.lane i = s.lane i) ∧
    (s.romByte b = 0 → ∀ i < s.width.lanes, t.lane i = s.lane i)) ∧
  ∀ s : State, Function.Injective s.romByte → ∃ b, s.romByte b = 0 ∧ ∀ c, s.romByte c = 0 → c = b

/-- R82: SUM responds with `[acc[0], ..., acc[W-1]]`, lane 0 first, and writes nothing. -/
def Obligations.SumRespondsWithTheLanesInOrder : Prop :=
  ∀ s : State, ∃ t, exec .sum s = .next t ∧ t.sameBlock s ∧ t.inputs = s.inputs ∧
    t.out.rspValid = true ∧ t.out.rspLen.toNat = s.width.lanes ∧
    t.out.response = (List.range s.width.lanes).map s.lane

/-- R83: a SUM repeated gives the same response; the ABSORBs after a SUM continue from the same lanes; in
AwaitingFirstByte (of a state that meets the invariant) it responds with W zero bytes; at W = 1 a zero digest is also reached in
Streaming; the response has exactly W bytes. -/
def Obligations.SumIsNonDestructive : Prop :=
  (∀ s : State, ∃ t u, exec .sum s = .next t ∧ exec .sum t = .next u ∧ u.out.response = t.out.response ∧
    t.out.response.length = s.width.lanes ∧
    (∀ bs : List Byte, bs ≠ [] → execAll (bs.map Instr.absorb) t = execAll (bs.map Instr.absorb) s) ∧
    (Invariant s → s.mode = .awaitingFirstByte → t.out.response = List.replicate s.width.lanes 0)) ∧
  ∀ (rom : List Host.Cell) (b : Byte), ∃ t,
    execAll [.absorb b, .absorb b, .sum] (State.initial .one rom) = .next t ∧ t.mode = .streaming ∧ t.out.response = [0]

/-- R84: SIZE responds with the one byte W, which is 1, 2 or 3 and which no command and no reset changes. -/
def Obligations.SizeRespondsWithTheWidth : Prop :=
  (∀ s : State, ∃ t, exec .size s = .next t ∧ t.sameBlock s ∧ t.inputs = s.inputs ∧ t.out.rspValid = true ∧
    t.out.response = [BitVec.ofNat 8 s.width.lanes] ∧ 1 ≤ s.width.lanes ∧ s.width.lanes ≤ 3) ∧
  ∀ s t : State, step s = .next t → ∃ u v, exec .size s = .next u ∧ exec .size t = .next v ∧
    v.out.response = u.out.response

/-- R85: BSIZE responds with the one byte 1 for every W and every state. -/
def Obligations.BsizeRespondsWithOne : Prop :=
  ∀ s : State, ∃ t, exec .bsize s = .next t ∧ t.sameBlock s ∧ t.inputs = s.inputs ∧ t.out.rspValid = true ∧
    t.out.response = [1]

/-! ## Frames -/

/-- The frame of NOP, SUM, SIZE and BSIZE (R13, R15, R31): every lane, the flag, the width, every ROM byte and what the
outside has yet to present are unchanged. They store nothing, so every ROM byte reads as before. -/
def Obligations.QueryAndNopFrame : Prop :=
  ∀ (i : Instr) (s t : State), i = .nop ∨ i = .sum ∨ i = .size ∨ i = .bsize → exec i s = .next t →
    t.acc = s.acc ∧ (∀ k, t.lane k = s.lane k) ∧ t.mode = s.mode ∧ t.width = s.width ∧
    (∀ a, t.romByte a = s.romByte a) ∧ t.inputs = s.inputs

/-- The frame of ABSORB and SRESET (R13, R15, R31, R55): the lanes and the flag are their destinations, and no lane beyond W
comes to exist; the width, every ROM byte and what the outside has yet to present are unchanged; there is no response. -/
def Obligations.AbsorbAndSresetFrame : Prop :=
  ∀ (i : Instr) (s t : State), (∃ b, i = .absorb b) ∨ i = .sreset → exec i s = .next t →
    t.acc.length = s.width.lanes ∧ t.width = s.width ∧ (∀ a, t.romByte a = s.romByte a) ∧ t.inputs = s.inputs ∧
    t.out.cmdReady = true ∧ t.out.rspValid = false ∧ t.out.rspLen = 0 ∧ t.out.rspData = 0

/-- R31: no step of any kind changes a table byte, nor (R5) the width; so the same byte is read at any step of any run. -/
def Obligations.RomIsNeverWritten : Prop :=
  ∀ (k : Nat) (s t : State), runSteps k s = .next t → (∀ a, t.romByte a = s.romByte a) ∧ t.width = s.width

/-- R15 and R13 over steps: where a step changes the flag or a lane, it was a HardReset, an ABSORB or an SRESET. -/
def Obligations.OnlyAbsorbAndResetsWriteState : Prop :=
  ∀ s t : State, step s = .next t → (t.mode ≠ s.mode ∨ t.acc ≠ s.acc) →
    s.pins.rst = true ∨
      (s.pins.cmdValid = true ∧ (s.pins.cmd &&& 0x700 = 0x100 ∨ s.pins.cmd &&& 0x700 = 0x200))

/-! ## The transition table and the port -/

/-- R73: the nine rows of update_fsm's transition table, for every state (the row of SRESET in AwaitingFirstByte, where the
lanes already were zero, for the states that meet the invariant). -/
def Obligations.TransitionTable : Prop :=
  ∀ s : State,
    (s.mode = .awaitingFirstByte → ∀ b : Byte, ∃ t, exec (.absorb b) s = .next t ∧ t.mode = .streaming ∧
      (∀ i < s.width.lanes, t.lane i = s.romByte (BitVec.ofNat 8 ((b.toNat + i) % 256))) ∧ t.out.response = []) ∧
    (s.mode = .streaming → ∀ b : Byte, ∃ t, exec (.absorb b) s = .next t ∧ t.mode = .streaming ∧
      (∀ i < s.width.lanes, t.lane i = s.lane i ^^^ s.romByte b) ∧ t.out.response = []) ∧
    (s.mode = .awaitingFirstByte → ∃ t, exec .sreset s = .next t ∧ t.mode = .awaitingFirstByte ∧
      (∀ i < s.width.lanes, t.lane i = 0) ∧ (Invariant s → t.acc = s.acc) ∧ t.out.response = []) ∧
    (s.mode = .streaming → ∃ t, exec .sreset s = .next t ∧ t.mode = .awaitingFirstByte ∧
      (∀ i < s.width.lanes, t.lane i = 0) ∧ t.out.response = []) ∧
    (∃ t, step (s.presenting [StepInput.hardReset s.width]) = .next t ∧ t.mode = .awaitingFirstByte ∧
      (∀ i < s.width.lanes, t.lane i = 0) ∧ t.out.response = []) ∧
    (∃ t, exec .nop s = .next t ∧ t.mode = s.mode ∧ t.acc = s.acc ∧ t.out.response = []) ∧
    (∃ t, exec .sum s = .next t ∧ t.mode = s.mode ∧ t.acc = s.acc ∧
      t.out.response = (List.range s.width.lanes).map s.lane) ∧
    (∃ t, exec .size s = .next t ∧ t.mode = s.mode ∧ t.acc = s.acc ∧
      t.out.response = [BitVec.ofNat 8 s.width.lanes]) ∧
    (∃ t, exec .bsize s = .next t ∧ t.mode = s.mode ∧ t.acc = s.acc ∧ t.out.response = [1])

/-- R56: byte k of the response on `rsp_data[8k+7:8k]`, the byte positions past `rsp_len` 0, every output 0 when there is no
response; for each of the six commands. -/
def Obligations.ResponseBusPacking : Prop :=
  ∀ s : State,
    (∃ t, exec .sum s = .next t ∧ t.out.rspValid = true ∧ t.out.rspLen = s.width.strap ∧
      (∀ k < s.width.lanes, t.out.rspData.extractLsb' (8 * k) 8 = s.lane k) ∧
      ∀ k, s.width.lanes ≤ k → k < 3 → t.out.rspData.extractLsb' (8 * k) 8 = 0) ∧
    (∃ t, exec .size s = .next t ∧ t.out.rspValid = true ∧ t.out.rspLen = 1 ∧
      t.out.rspData = s.width.strap.setWidth 24) ∧
    (∃ t, exec .bsize s = .next t ∧ t.out.rspValid = true ∧ t.out.rspLen = 1 ∧ t.out.rspData = 1) ∧
    ∀ i : Instr, i = .nop ∨ i = .sreset ∨ (∃ b, i = .absorb b) →
      ∃ t, exec i s = .next t ∧ t.out.rspValid = false ∧ t.out.rspLen = 0 ∧ t.out.rspData = 0

/-- R55, R114, R121 over steps: the block is ready in every step outside HardReset, and responds exactly to SUM, SIZE and
BSIZE, in the step of the command. -/
def Obligations.ReadyAndResponseByStep : Prop :=
  ∀ s t : State, step s = .next t →
    (t.out.cmdReady = true ↔ s.pins.rst = false) ∧
    (t.out.rspValid = true ↔ s.pins.rst = false ∧ s.pins.cmdValid = true ∧
      (s.pins.cmd &&& 0x700 = 0x300 ∨ s.pins.cmd &&& 0x700 = 0x400 ∨ s.pins.cmd &&& 0x700 = 0x500)) ∧
    (t.out.rspValid = false → t.out.response = [])

/-- A step runs the decoded command (R50, R51, R52): where the strap holds W, one driver drives the port, `rst` is 0 and
`cmd_valid` is 1, the step is `exec` of the command the word spells, on the instance that has taken the pins. -/
def Obligations.StepRunsTheDecodedCommand : Prop :=
  ∀ (s : State) (i : Instr), s.pins.cfgWidth = s.width.strap → s.pins.otherDriver = false → s.pins.rst = false →
    s.pins.cmdValid = true → decode s.pins.cmd = .ok i →
    step s = exec i { s with inputs := s.inputs.tail }

/-- The same of a word placed by `withFetchWord` (log entry 10): the very next step is `exec` of the command that
`decodeTableWord` reads. -/
def Obligations.PlacedWordRunsInTheNextStep : Prop :=
  ∀ (s : State) (nbits w : Nat) (i : Instr), decodeTableWord nbits w = some i →
    step (s.withFetchWord nbits w) = exec i s

/-- R59: a step with `cmd_valid = 0` and `rst = 0` holds the state and nothing responds, whatever stands on `cmd`; it is the
same as NOP. -/
def Obligations.StepWithoutCommandHoldsTheState : Prop :=
  ∀ s : State, s.pins.cfgWidth = s.width.strap → s.pins.otherDriver = false → s.pins.rst = false →
    s.pins.cmdValid = false →
    ∃ t, step s = .next t ∧ t.sameBlock s ∧ t.out.rspValid = false ∧ t.out.response = [] ∧
      exec .nop { s with inputs := s.inputs.tail } = .next t

/-- R110 (with R57, R62, R98, R118; the order of the checks is the model's, log entries 6 to 8): a step is refused exactly when
the strap is 0, the strap is not the instance's, a second host drives the port, or a reserved opcode is presented, in a
HardReset step too. -/
def Obligations.StepIsRefusedExactlyOutsideTheSpec : Prop :=
  ∀ (s : State) (r : Refusal), step s = .refused r ↔
    (r = .illegalStrap ∧ s.pins.cfgWidth = 0) ∨
    (r = .strapChanged ∧ s.pins.cfgWidth ≠ 0 ∧ s.pins.cfgWidth ≠ s.width.strap) ∨
    (r = .secondDriver ∧ s.pins.cfgWidth = s.width.strap ∧ s.pins.otherDriver = true) ∨
    (s.pins.cfgWidth = s.width.strap ∧ s.pins.otherDriver = false ∧ s.pins.cmdValid = true ∧
      ((r = .reservedOpcode 6 ∧ s.pins.cmd &&& 0x700 = 0x600) ∨
       (r = .reservedOpcode 7 ∧ s.pins.cmd &&& 0x700 = 0x700)))

/-- R100 and R58: the six commands are total, and a run on safe inputs never stops. -/
def Obligations.CommandsAndSafeRunsAreTotal : Prop :=
  (∀ (i : Instr) (s : State), ∃ t, exec i s = .next t) ∧
  ∀ (s : State) (ps : List StepInput), (∀ p ∈ ps, safeInput s.width p = true) →
    ∃ t, runSteps ps.length (s.presenting ps) = .next t ∧ t.inputs = []

/-- R19, R40: what a step does to the block and what it drives depends on the lanes, the flag, W, T and the pins of this step
alone: not on the outputs of an earlier step and not on what is presented later. -/
def Obligations.StepDependsOnTheBlockAndItsPinsOnly : Prop :=
  ∀ s t : State, s.sameBlock t → s.pins = t.pins →
    (∀ s', step s = .next s' → ∃ t', step t = .next t' ∧ s'.sameBlock t' ∧ s'.out = t'.out) ∧
    ∀ r, step s = .refused r → step t = .refused r

/-! ## Encoding -/

/-- R52: the eight rows of the opcode map, by mask and match. -/
def Obligations.DecodeFollowsTheOpcodeMap : Prop :=
  ∀ w : CmdWord,
    (w &&& 0x700 = 0x000 → decode w = .ok .nop) ∧
    (w &&& 0x700 = 0x100 → decode w = .ok (.absorb (w.setWidth 8))) ∧
    (w &&& 0x700 = 0x200 → decode w = .ok .sreset) ∧
    (w &&& 0x700 = 0x300 → decode w = .ok .sum) ∧
    (w &&& 0x700 = 0x400 → decode w = .ok .size) ∧
    (w &&& 0x700 = 0x500 → decode w = .ok .bsize) ∧
    (w &&& 0x700 = 0x600 → decode w = .error (.reservedOpcode 6)) ∧
    (w &&& 0x700 = 0x700 → decode w = .error (.reservedOpcode 7))

/-- R54: `din` of the commands without an operand is not looked at, and the canonical word has it 0. -/
def Obligations.DinIsIgnoredWithoutOperand : Prop :=
  (∀ (op : BitVec 3) (d e : Byte), op ≠ 1 → decode (op ++ d) = decode (op ++ e)) ∧
  ∀ i : Instr, (∀ b, i ≠ .absorb b) → (encode i).setWidth 8 = (0 : Byte)

/-- Decode and encode agree (R50, R52, R54): decoding the canonical word of a command gives it back, with every operand; a word
that decodes to a command has that command's opcode, and is its canonical word where the command has an operand or `din` is
0. -/
def Obligations.DecodeAndEncodeAgree : Prop :=
  (∀ i : Instr, i.wellFormed = true → decode (encode i) = .ok i) ∧
  ∀ (w : CmdWord) (i : Instr), decode w = .ok i →
    encode i &&& 0x700 = w &&& 0x700 ∧ ((∃ b, i = .absorb b) ∨ w.setWidth 8 = (0 : Byte) → encode i = w)

/-- Words written out from the spec's table of examples (95_test_vectors.md 2.6), one for each family and both refusals. -/
def Obligations.ExampleWordsDecode : Prop :=
  decode 0b00010100101 = .ok .nop ∧ decode 0b00101100110 = .ok (.absorb 0x66) ∧
  decode 0b01011111111 = .ok .sreset ∧ decode 0b01100000000 = .ok .sum ∧ decode 0b10000000000 = .ok .size ∧
  decode 0b10100000001 = .ok .bsize ∧ decode 0b11000000000 = .error (.reservedOpcode 6) ∧
  decode 0b11111111111 = .error (.reservedOpcode 7)

/-- R60: every line of the syntax, written out as text, reads back as itself (the details R60 leaves open are log entry
14). -/
def Obligations.AssemblyTextReadsBack : Prop :=
  ∀ l : AsmLine, parseAsmLine l.render = some (some l)

/-! ## The table -/

/-- R53, R74: index addition is mod 256, without carry. -/
def Obligations.SeedAddressIsAdditionMod256 : Prop :=
  ∀ (b : Byte) (i : Nat), (seedAddress b i).toNat = (b.toNat + i) % 256

/-- R37: the result of an ABSORB depends on the table bytes at the addresses `absorbReads` lists and on no others; the other
commands read none. -/
def Obligations.AbsorbReadsOnlyItsAddresses : Prop :=
  ∀ (s : State) (rom : List Host.Cell),
    (∀ b : Byte, (∀ a ∈ absorbReads s.width s.mode b, Memory.read rom a = s.romByte a) →
      ∃ t u, exec (.absorb b) s = .next t ∧ exec (.absorb b) { s with rom := rom } = .next u ∧
        u.acc = t.acc ∧ u.mode = t.mode ∧ u.out = t.out) ∧
    ∀ i : Instr, (∀ b, i ≠ .absorb b) →
      ∃ t u, exec i s = .next t ∧ exec i { s with rom := rom } = .next u ∧
        u.acc = t.acc ∧ u.mode = t.mode ∧ u.out = t.out

/-- R33, R34, R35: the source's known answers for "foo", "food", "doof" and "quick brown fox" (95_test_vectors.md 1.2) hold
at every width for EVERY admissible table, not only for the one of R45. -/
def Obligations.KnownAnswersHoldForEveryAdmissibleTable : Prop :=
  ∀ rom : List Host.Cell, AdmissibleTable (Memory.read rom) → ∀ w : Width,
    oneShotHash w rom [0x66, 0x6f, 0x6f] = .next ([0xf8, 0xca, 0x33].take w.lanes) ∧
    oneShotHash w rom [0x66, 0x6f, 0x6f, 0x64] = .next ([0xe8, 0xda, 0x23].take w.lanes) ∧
    oneShotHash w rom [0x64, 0x6f, 0x6f, 0x66] = .next ([0xe8, 0x1b, 0x00].take w.lanes) ∧
    oneShotHash w rom [0x71, 0x75, 0x69, 0x63, 0x6b, 0x20, 0x62, 0x72, 0x6f, 0x77, 0x6e, 0x20, 0x66, 0x6f, 0x78] =
      .next ([0x92, 0xbe, 0xb7].take w.lanes)

/-- The canonical form of the ROM's list (log entry 2): every table has a list in canonical form that reads as it, and two
lists in canonical form that read alike are equal. -/
def Obligations.EveryTableHasOneCanonicalRom : Prop :=
  (∀ T : Addr → Byte, Memory.wf (Memory.ofTable T) = true ∧ ∀ a, Memory.read (Memory.ofTable T) a = T a) ∧
  ∀ m n : List Host.Cell, Memory.wf m = true → Memory.wf n = true →
    (∀ a, Memory.read m a = Memory.read n a) → m = n

/-! ## The invariant -/

/-- R12, R20, R55, R56, R114: every step keeps the invariant. -/
def Obligations.EveryStepKeepsTheInvariant : Prop :=
  ∀ s t : State, Invariant s → step s = .next t → Invariant t

/-- The invariant holds after HardReset, of every instance whose ROM list is in canonical form, the model's own among them. -/
def Obligations.ResetMeetsTheInvariant : Prop :=
  Invariant State.reset ∧
    ∀ (w : Width) (rom : List Host.Cell), Memory.wf rom = true → Invariant (State.initial w rom)

/-! ## What a run computes -/

/-- R75 and R21: the closed form. Whatever safe pins the outside presents, over any number of steps and resets, if the bytes
absorbed since the last reset are `h` before (R75's formula holding of them) and `bytes` after, the lanes are R75's formula of
`bytes` and the mode is Streaming exactly when there is one; from the HardReset state, and from any state once a HardReset
has been presented. -/
def Obligations.LanesAreTheHashOfTheBytesSinceReset : Prop :=
  (∀ (s : State) (h : List Byte) (ps : List StepInput), (∀ p ∈ ps, safeInput s.width p = true) →
    s.acc = hashOf s.width s.romByte h → s.mode = modeAfter h →
    ∃ t, runSteps ps.length (s.presenting ps) = .next t ∧
      t.acc = hashOf s.width s.romByte (absorbedSinceReset h ps) ∧ t.mode = modeAfter (absorbedSinceReset h ps)) ∧
  (∀ (w : Width) (rom : List Host.Cell) (ps : List StepInput), (∀ p ∈ ps, safeInput w p = true) →
    ∃ t, runSteps ps.length ((State.initial w rom).presenting ps) = .next t ∧
      t.acc = hashOf w (Memory.read rom) (absorbedSinceReset [] ps) ∧ t.mode = modeAfter (absorbedSinceReset [] ps)) ∧
  ∀ (s : State) (p : StepInput) (ps : List StepInput), isHardReset s.width p = true →
    (∀ q ∈ ps, safeInput s.width q = true) →
    ∃ t, runSteps (ps.length + 1) (s.presenting (p :: ps)) = .next t ∧
      t.acc = hashOf s.width s.romByte (absorbedSinceReset [] ps) ∧ t.mode = modeAfter (absorbedSinceReset [] ps)

/-- R76: the XOR of a lane with lane 0 is `T[(b0 + i) mod 256] XOR T[b0]`, non-zero for i = 1, 2 with a table without
repeated values. -/
def Obligations.LaneRelationDependsOnTheFirstByteAlone : Prop :=
  ∀ (w : Width) (rom : List Host.Cell) (ps : List StepInput) (b0 : Byte) (rest : List Byte),
    (∀ p ∈ ps, safeInput w p = true) → absorbedSinceReset [] ps = b0 :: rest →
    ∃ t, runSteps ps.length ((State.initial w rom).presenting ps) = .next t ∧ t.mode = .streaming ∧
      (∀ i < w.lanes, t.lane i ^^^ t.lane 0 =
        Memory.read rom (BitVec.ofNat 8 ((b0.toNat + i) % 256)) ^^^ Memory.read rom b0) ∧
      (∀ i < w.lanes, t.lane i =
        t.lane 0 ^^^ Memory.read rom b0 ^^^ Memory.read rom (BitVec.ofNat 8 ((b0.toNat + i) % 256))) ∧
      (Function.Injective (Memory.read rom) → ∀ i < w.lanes, 1 ≤ i → t.lane i ^^^ t.lane 0 ≠ 0)

/-- R22, on the states runs reach: a non-zero digest means Streaming; for W >= 2 and a table without repeated values a zero
digest means AwaitingFirstByte; for W = 1 it means nothing. -/
def Obligations.WhatADigestTellsAboutTheMode : Prop :=
  (∀ (w : Width) (rom : List Host.Cell) (ps : List StepInput), (∀ p ∈ ps, safeInput w p = true) →
    ∃ t, runSteps ps.length ((State.initial w rom).presenting ps) = .next t ∧
      ((∃ b ∈ t.digest, b ≠ 0) → t.mode = .streaming) ∧
      (2 ≤ w.lanes → Function.Injective (Memory.read rom) → (∀ b ∈ t.digest, b = 0) → t.mode = .awaitingFirstByte)) ∧
  ∀ (rom : List Host.Cell) (b : Byte), ∃ t, execAll [.absorb b, .absorb b] (State.initial .one rom) = .next t ∧
    t.mode = .streaming ∧ t.digest = [0]

/-- R78: permuting the bytes after the first changes no lane, removing two equal ones among them changes no lane, and lane 0
is the same for every permutation of the whole input. -/
def Obligations.OrderAfterTheFirstByteDoesNotMatter : Prop :=
  (∀ (s : State) (b0 : Byte) (rest rest' : List Byte), s.mode = .awaitingFirstByte → rest.Perm rest' →
    ∃ t, execAll ((b0 :: rest).map Instr.absorb) s = .next t ∧ execAll ((b0 :: rest').map Instr.absorb) s = .next t) ∧
  (∀ (s : State) (b0 x : Byte) (l m n : List Byte), s.mode = .awaitingFirstByte →
    ∃ t, execAll ((b0 :: (l ++ [x] ++ m ++ [x] ++ n)).map Instr.absorb) s = .next t ∧
      execAll ((b0 :: (l ++ m ++ n)).map Instr.absorb) s = .next t) ∧
  ∀ (s : State) (bs bs' : List Byte), s.mode = .awaitingFirstByte → bs.Perm bs' →
    ∃ t u, execAll (bs.map Instr.absorb) s = .next t ∧ execAll (bs'.map Instr.absorb) s = .next u ∧ u.lane 0 = t.lane 0

/-- R79: for one input and one table, the digest of a narrower instance is a prefix of the digest of a wider one. -/
def Obligations.NarrowDigestIsAPrefixOfTheWideOne : Prop :=
  ∀ (v w : Width) (rom : List Host.Cell) (bs : List Byte), v.lanes ≤ w.lanes →
    ∃ t u, execAll (bs.map Instr.absorb) (State.initial v rom) = .next t ∧
      execAll (bs.map Instr.absorb) (State.initial w rom) = .next u ∧ t.digest = u.digest.take v.lanes

/-- R77: the state after a byte sequence does not depend on how it was grouped into Writes, empty ones included. -/
def Obligations.ChunkingDoesNotMatter : Prop :=
  ∀ (s : State) (chunks : List (List Byte)), ∃ t counts,
    runHostOps (chunks.map HostOp.write) s = .next (t, counts) ∧
    runHostOps [HostOp.write chunks.flatten] s = .next (t, [.count chunks.flatten.length]) ∧
    counts = chunks.map (fun c => HostResult.count c.length)

/-- R83, R91: the commands that are neither ABSORB nor SRESET may stand anywhere in a sequence; lanes and mode end as
without them. -/
def Obligations.QueriesAndNopsDoNotDisturbTheStream : Prop :=
  ∀ (s : State) (is : List Instr), ∃ t u, execAll is s = .next t ∧
    execAll (is.filter writesState) s = .next u ∧ t.acc = u.acc ∧ t.mode = u.mode

/-- R86: after SRESET and after HardReset any pins give the same states and responses. -/
def Obligations.ResetIdempotence : Prop :=
  ∀ s : State, ∃ t u, exec .sreset s = .next t ∧ step (s.presenting [StepInput.hardReset s.width]) = .next u ∧
    t.sameBlock u ∧
    ∀ (ps : List StepInput) (k : Nat), 1 ≤ k → runSteps k (t.presenting ps) = runSteps k (u.presenting ps)

/-- R40: commands take effect in the order the host presents them, each reading the state as the one before it left it: the
steps of a presented command sequence are the meanings of the commands, one after another. -/
def Obligations.PresentedCommandsRunInOrder : Prop :=
  ∀ (s : State) (is : List Instr) (ps : List StepInput),
    ∃ t, execAll is (s.presenting ps) = .next t ∧
      runSteps is.length (s.presenting (is.map (StepInput.command s.width) ++ ps)) = .next t ∧ t.inputs = ps

/-- R93 to R96: what the host's operations return, in every state. -/
def Obligations.HostOperationsReturnWhatTheSourceSays : Prop :=
  ∀ s : State,
    (∀ bs : List Byte, ∃ t, (HostOp.write bs).run s = .next (t, .count bs.length) ∧ (bs = [] → t = s)) ∧
    (∀ buffer : List Byte, ∃ t,
      (HostOp.sum buffer).run s = .next (t, .bytes (buffer ++ (List.range s.width.lanes).map s.lane)) ∧ t.sameBlock s) ∧
    (∃ t, HostOp.reset.run s = .next (t, .nothing) ∧ t.sameBlock (State.initial s.width s.rom)) ∧
    (∃ t, HostOp.size.run s = .next (t, .int s.width.lanes) ∧ t.sameBlock s) ∧
    ∃ t, HostOp.blockSize.run s = .next (t, .int 1) ∧ t.sameBlock s

/-- R97: the one-shot hash is R75's formula, and W zero bytes for the empty input. -/
def Obligations.OneShotHashIsTheClosedForm : Prop :=
  ∀ (w : Width) (rom : List Host.Cell) (x : List Byte),
    oneShotHash w rom x = .next (hashOf w (Memory.read rom) x) ∧
    oneShotHash w rom [] = .next (List.replicate w.lanes 0)

/-- R24, R108: a step of one instance changes nothing in another, and the steps of two instances may be taken in either
order. -/
def Obligations.InstancesAreIndependent : Prop :=
  ∀ (n : Nat) (j k : Fin n) (sys a b : System n), j ≠ k →
    System.stepAt j sys = .next a → System.stepAt k sys = .next b →
    (∀ i : Fin n, i ≠ j → a[i] = sys[i]) ∧ step sys[j] = .next a[j] ∧
    ∃ c, System.stepAt k a = .next c ∧ System.stepAt j b = .next c
end

