-- ==== Sys2Proof/Laws/Decode.lean ====
section
/-!
SUPPORT. The fields of a command word, and the opcode field in terms of the opcode map's mask (spec/30_encoding.md R50, R52).
-/

namespace Sys2Proof

@[simp] theorem opField_cmdWord (op : BitVec 3) (d : Byte) : opField (cmdWord op d) = op := by
  unfold opField cmdWord
  ext i hi
  rw [BitVec.getElem_extractLsb', BitVec.getLsbD_append, if_neg (by omega), Nat.add_sub_cancel_left]
  exact BitVec.getLsbD_eq_getElem hi

@[simp] theorem dinField_cmdWord (op : BitVec 3) (d : Byte) : dinField (cmdWord op d) = d := by
  unfold dinField cmdWord
  ext i hi
  rw [BitVec.getElem_extractLsb', BitVec.getLsbD_append, if_pos (by omega), Nat.zero_add]
  exact BitVec.getLsbD_eq_getElem hi

/-- A word is its two fields. -/
theorem cmdWord_fields (w : CmdWord) : cmdWord (opField w) (dinField w) = w := by
  unfold opField dinField cmdWord
  ext i hi
  rw [← BitVec.getLsbD_eq_getElem, ← BitVec.getLsbD_eq_getElem, BitVec.getLsbD_append]
  split
  · rename_i h
    simp [h]
  · rename_i h
    simp [show i - 8 < 3 by omega, show 8 + (i - 8) = i by omega]

theorem dinField_eq_setWidth (w : CmdWord) : dinField w = w.setWidth 8 := by
  ext i hi
  simp [dinField]

/-- The masked word is the opcode alone. -/
theorem mask_eq_opField (w : CmdWord) : w &&& 0x700 = cmdWord (opField w) 0 := by
  have h : ∀ i < 11, ((0x700 : CmdWord).getLsbD i) = decide (8 ≤ i) := by decide
  unfold opField cmdWord
  ext i hi
  rw [← BitVec.getLsbD_eq_getElem, ← BitVec.getLsbD_eq_getElem, BitVec.getLsbD_append, BitVec.getLsbD_and, h i hi]
  split
  · simp; omega
  · rename_i h
    simp [show i - 8 < 3 by omega, show 8 + (i - 8) = i by omega, show 8 ≤ i by omega]

/-- A row of the opcode map, by its mask and match, is its opcode. -/
theorem mask_eq_iff (w : CmdWord) (op : BitVec 3) : w &&& 0x700 = cmdWord op 0 ↔ opField w = op := by
  rw [mask_eq_opField]
  constructor
  · intro h
    have := congrArg opField h
    simpa using this
  · rintro rfl
    rfl

theorem wellFormed_iff_opField (w : CmdWord) : cmdWordWellFormed w = true ↔ opField w ≠ 6 ∧ opField w ≠ 7 := by
  have hlt := w.isLt
  have h : (opField w).toNat = (w >>> 8).toNat := by
    simp [opField, BitVec.extractLsb'_toNat, Nat.shiftRight_eq_div_pow]
    omega
  rw [← BitVec.toNat_inj.ne, ← BitVec.toNat_inj.ne, h]
  simp only [cmdWordWellFormed, decide_eq_true_eq]
  have : (w >>> 8).toNat < 8 := by simp [Nat.shiftRight_eq_div_pow]; omega
  simp
  omega

/-- What the decoder answers, by the opcode. -/
theorem decode_ok_iff (w : CmdWord) (i : Instr) : decode w = .ok i ↔
    (opField w = 0 ∧ i = .nop) ∨ (opField w = 1 ∧ i = .absorb (dinField w)) ∨ (opField w = 2 ∧ i = .sreset) ∨
    (opField w = 3 ∧ i = .sum) ∨ (opField w = 4 ∧ i = .size) ∨ (opField w = 5 ∧ i = .bsize) := by
  unfold decode
  generalize opField w = op
  revert op
  have : ∀ op : BitVec 3, op = 0 ∨ op = 1 ∨ op = 2 ∨ op = 3 ∨ op = 4 ∨ op = 5 ∨ op = 6 ∨ op = 7 := by decide
  intro op
  rcases this op with h | h | h | h | h | h | h | h <;> subst h <;> simp [eq_comm]

/-- What the decoder refuses, by the opcode. -/
theorem decode_error_iff (w : CmdWord) (op : BitVec 3) : decode w = .error (.reservedOpcode op) ↔
    (op = 6 ∧ opField w = 6) ∨ (op = 7 ∧ opField w = 7) := by
  unfold decode
  generalize opField w = o
  have : ∀ o : BitVec 3, o = 0 ∨ o = 1 ∨ o = 2 ∨ o = 3 ∨ o = 4 ∨ o = 5 ∨ o = 6 ∨ o = 7 := by decide
  rcases this o with h | h | h | h | h | h | h | h <;> subst h <;> simp [eq_comm]

/-- The check on a command word accepts exactly the words that decode (R52, R57). -/
theorem wellFormed_iff_decode (w : CmdWord) : cmdWordWellFormed w = true ↔ ∃ i, decode w = .ok i := by
  rw [wellFormed_iff_opField]
  constructor
  · intro h
    cases hd : decode w with
    | ok i => exact ⟨i, rfl⟩
    | error e =>
      obtain ⟨op⟩ := e
      obtain ⟨-, h'⟩ | ⟨-, h'⟩ := (decode_error_iff w op).1 hd <;> simp [h'] at h
  · rintro ⟨i, hi⟩
    rw [decode_ok_iff] at hi
    cases i <;> simp_all

end Sys2Proof
end

