-- ==== Sys2Proof/Laws/Memory.lean ====
section
/-!
SUPPORT. The ROM's list: reading, the canonical form, and every table as a memory. There is no write operation
(spec/20_memory.md R31), so the operations that keep the canonical form are the empty list and `Memory.ofTable`.
-/

namespace Sys2Proof.Machine

@[simp] theorem Memory.read_nil (a : Addr) : Memory.read [] a = unlistedByte a := rfl

theorem Memory.read_cons (c : Host.Cell) (m : List Host.Cell) (a : Addr) :
    Memory.read (c :: m) a = if c.1 = a.toNat then c.2 else Memory.read m a := by
  unfold Memory.read
  by_cases h : c.1 = a.toNat
  · rw [List.find?_cons_of_pos (by simpa using h), if_pos h]
  · rw [List.find?_cons_of_neg (by simpa using h), if_neg h]

theorem Memory.wf_nil : Memory.wf [] = true := rfl

/-- Reading below the lowest listed address gives the unlisted byte. -/
theorem Memory.read_below (m : List Host.Cell) (low : Nat) (h : Memory.risingFrom low m = true) (a : Addr)
    (ha : a.toNat < low) : Memory.read m a = unlistedByte a := by
  induction m generalizing low with
  | nil => rfl
  | cons c m ih =>
    simp only [Memory.risingFrom, Bool.and_eq_true, decide_eq_true_eq] at h
    rw [Memory.read_cons, if_neg (by omega)]
    exact ih (c.1 + 1) h.2 (by omega)

theorem Memory.cellsFrom_rising (T : Addr → Byte) (n start low : Nat) (h : low ≤ start) :
    Memory.risingFrom low (Memory.cellsFrom T start n) = true := by
  induction n generalizing start low with
  | zero => rfl
  | succ n ih =>
    unfold Memory.cellsFrom
    split
    · exact ih (start + 1) low (by omega)
    · simp [Memory.risingFrom, h, ih (start + 1) (start + 1) (Nat.le_refl _)]

theorem Memory.cellsFrom_entries (T : Addr → Byte) (n start : Nat) (h : start + n ≤ 256) :
    (Memory.cellsFrom T start n).all
      (fun c => decide (c.1 < 256) && decide (c.2 ≠ unlistedByte (BitVec.ofNat 8 c.1))) = true := by
  induction n generalizing start with
  | zero => rfl
  | succ n ih =>
    unfold Memory.cellsFrom
    split
    · exact ih (start + 1) (by omega)
    · rename_i hne
      rw [List.all_cons, ih (start + 1) (by omega)]
      simp [hne, show start < 256 by omega]

/-- Every table gives a memory in canonical form. -/
theorem Memory.ofTable_wf (T : Addr → Byte) : Memory.wf (Memory.ofTable T) = true := by
  simp only [Memory.wf, Memory.ofTable, Memory.cellsFrom_rising T 256 0 0 (Nat.le_refl _), Bool.true_and]
  exact Memory.cellsFrom_entries T 256 0 (by omega)

theorem Memory.read_cellsFrom (T : Addr → Byte) (n start : Nat) (a : Addr) (h : start + n ≤ 256)
    (ha : start ≤ a.toNat) (hb : a.toNat < start + n) : Memory.read (Memory.cellsFrom T start n) a = T a := by
  induction n generalizing start with
  | zero => omega
  | succ n ih =>
    unfold Memory.cellsFrom
    by_cases hs : a.toNat = start
    · have hv : BitVec.ofNat 8 start = a := by rw [← hs]; simp
      rw [hv]
      split
      · rename_i heq
        rw [heq]
        exact Memory.read_below _ (start + 1) (Memory.cellsFrom_rising T n (start + 1) (start + 1) (Nat.le_refl _)) a
          (by omega)
      · rw [Memory.read_cons, if_pos hs.symm]
    · have hrest := ih (start + 1) (by omega) (by omega) (by omega)
      split
      · exact hrest
      · rw [Memory.read_cons, if_neg (fun he => hs he.symm)]
        exact hrest

/-- Every table is read back from its memory: statements about every `rom` are statements about every T (R36). -/
@[simp] theorem Memory.read_ofTable (T : Addr → Byte) (a : Addr) : Memory.read (Memory.ofTable T) a = T a :=
  Memory.read_cellsFrom T 256 0 a (by omega) (by omega) (by have := a.isLt; omega)

end Sys2Proof.Machine
end

