-- ==== Sys2Proof/Laws/State.lean ====
section
/-!
SUPPORT. One lemma per field per state update, so that no proof unfolds a record update.
-/

namespace Sys2Proof.Machine

@[simp] theorem State.writeLanes_width (v : Nat → Byte) (s : State) : (s.writeLanes v).width = s.width := rfl
@[simp] theorem State.writeLanes_rom (v : Nat → Byte) (s : State) : (s.writeLanes v).rom = s.rom := rfl
@[simp] theorem State.writeLanes_acc (v : Nat → Byte) (s : State) : (s.writeLanes v).acc = (List.range s.width.lanes).map v := rfl
@[simp] theorem State.writeLanes_mode (v : Nat → Byte) (s : State) : (s.writeLanes v).mode = s.mode := rfl
@[simp] theorem State.writeLanes_inputs (v : Nat → Byte) (s : State) : (s.writeLanes v).inputs = s.inputs := rfl
@[simp] theorem State.writeLanes_out (v : Nat → Byte) (s : State) : (s.writeLanes v).out = s.out := rfl

@[simp] theorem State.setMode_width (m : Mode) (s : State) : (s.setMode m).width = s.width := rfl
@[simp] theorem State.setMode_rom (m : Mode) (s : State) : (s.setMode m).rom = s.rom := rfl
@[simp] theorem State.setMode_acc (m : Mode) (s : State) : (s.setMode m).acc = s.acc := rfl
@[simp] theorem State.setMode_mode (m : Mode) (s : State) : (s.setMode m).mode = m := rfl
@[simp] theorem State.setMode_inputs (m : Mode) (s : State) : (s.setMode m).inputs = s.inputs := rfl
@[simp] theorem State.setMode_out (m : Mode) (s : State) : (s.setMode m).out = s.out := rfl

@[simp] theorem State.respond_width (bytes : List Byte) (s : State) : (s.respond bytes).width = s.width := rfl
@[simp] theorem State.respond_rom (bytes : List Byte) (s : State) : (s.respond bytes).rom = s.rom := rfl
@[simp] theorem State.respond_acc (bytes : List Byte) (s : State) : (s.respond bytes).acc = s.acc := rfl
@[simp] theorem State.respond_mode (bytes : List Byte) (s : State) : (s.respond bytes).mode = s.mode := rfl
@[simp] theorem State.respond_inputs (bytes : List Byte) (s : State) : (s.respond bytes).inputs = s.inputs := rfl
@[simp] theorem State.respond_out (bytes : List Byte) (s : State) : (s.respond bytes).out = respondingOut bytes := rfl

@[simp] theorem State.quiet_width (s : State) : (s.quiet).width = s.width := rfl
@[simp] theorem State.quiet_rom (s : State) : (s.quiet).rom = s.rom := rfl
@[simp] theorem State.quiet_acc (s : State) : (s.quiet).acc = s.acc := rfl
@[simp] theorem State.quiet_mode (s : State) : (s.quiet).mode = s.mode := rfl
@[simp] theorem State.quiet_inputs (s : State) : (s.quiet).inputs = s.inputs := rfl
@[simp] theorem State.quiet_out (s : State) : (s.quiet).out = quietOut := rfl

@[simp] theorem State.clear_width (s : State) : (s.clear).width = s.width := rfl
@[simp] theorem State.clear_rom (s : State) : (s.clear).rom = s.rom := rfl
@[simp] theorem State.clear_acc (s : State) : (s.clear).acc = (List.range s.width.lanes).map (fun _ => 0) := rfl
@[simp] theorem State.clear_mode (s : State) : (s.clear).mode = .awaitingFirstByte := rfl
@[simp] theorem State.clear_inputs (s : State) : (s.clear).inputs = s.inputs := rfl
@[simp] theorem State.clear_out (s : State) : (s.clear).out = s.out := rfl

@[simp] theorem State.hardReset_width (s : State) : (s.hardReset).width = s.width := rfl
@[simp] theorem State.hardReset_rom (s : State) : (s.hardReset).rom = s.rom := rfl
@[simp] theorem State.hardReset_acc (s : State) : (s.hardReset).acc = (List.range s.width.lanes).map (fun _ => 0) := rfl
@[simp] theorem State.hardReset_mode (s : State) : (s.hardReset).mode = .awaitingFirstByte := rfl
@[simp] theorem State.hardReset_inputs (s : State) : (s.hardReset).inputs = s.inputs := rfl
@[simp] theorem State.hardReset_out (s : State) : (s.hardReset).out = resetOut := rfl

@[simp] theorem State.takePins_width (s : State) : (s.takePins).width = s.width := rfl
@[simp] theorem State.takePins_rom (s : State) : (s.takePins).rom = s.rom := rfl
@[simp] theorem State.takePins_acc (s : State) : (s.takePins).acc = s.acc := rfl
@[simp] theorem State.takePins_mode (s : State) : (s.takePins).mode = s.mode := rfl
@[simp] theorem State.takePins_inputs (s : State) : (s.takePins).inputs = s.inputs.tail := rfl
@[simp] theorem State.takePins_out (s : State) : (s.takePins).out = s.out := rfl

@[simp] theorem State.presenting_width (ins : List StepInput) (s : State) : (s.presenting ins).width = s.width := rfl
@[simp] theorem State.presenting_rom (ins : List StepInput) (s : State) : (s.presenting ins).rom = s.rom := rfl
@[simp] theorem State.presenting_acc (ins : List StepInput) (s : State) : (s.presenting ins).acc = s.acc := rfl
@[simp] theorem State.presenting_mode (ins : List StepInput) (s : State) : (s.presenting ins).mode = s.mode := rfl
@[simp] theorem State.presenting_inputs (ins : List StepInput) (s : State) : (s.presenting ins).inputs = ins := rfl
@[simp] theorem State.presenting_out (ins : List StepInput) (s : State) : (s.presenting ins).out = s.out := rfl

@[simp] theorem State.holdWithoutCommand_width (s : State) : (s.holdWithoutCommand).width = s.width := rfl
@[simp] theorem State.holdWithoutCommand_rom (s : State) : (s.holdWithoutCommand).rom = s.rom := rfl
@[simp] theorem State.holdWithoutCommand_acc (s : State) : (s.holdWithoutCommand).acc = s.acc := rfl
@[simp] theorem State.holdWithoutCommand_mode (s : State) : (s.holdWithoutCommand).mode = s.mode := rfl
@[simp] theorem State.holdWithoutCommand_inputs (s : State) : (s.holdWithoutCommand).inputs = s.inputs := rfl
@[simp] theorem State.holdWithoutCommand_out (s : State) : (s.holdWithoutCommand).out = quietOut := rfl

@[simp] theorem State.seedStep_width (b : Byte) (s : State) : (s.seedStep b).width = s.width := rfl
@[simp] theorem State.seedStep_rom (b : Byte) (s : State) : (s.seedStep b).rom = s.rom := rfl
@[simp] theorem State.seedStep_acc (b : Byte) (s : State) : (s.seedStep b).acc = (List.range s.width.lanes).map (fun i => s.romByte (seedAddress b i)) := rfl
@[simp] theorem State.seedStep_mode (b : Byte) (s : State) : (s.seedStep b).mode = .streaming := rfl
@[simp] theorem State.seedStep_inputs (b : Byte) (s : State) : (s.seedStep b).inputs = s.inputs := rfl
@[simp] theorem State.seedStep_out (b : Byte) (s : State) : (s.seedStep b).out = quietOut := rfl

@[simp] theorem State.foldStep_width (b : Byte) (s : State) : (s.foldStep b).width = s.width := rfl
@[simp] theorem State.foldStep_rom (b : Byte) (s : State) : (s.foldStep b).rom = s.rom := rfl
@[simp] theorem State.foldStep_acc (b : Byte) (s : State) : (s.foldStep b).acc = (List.range s.width.lanes).map (fun i => s.lane i ^^^ s.romByte (foldAddress b)) := rfl
@[simp] theorem State.foldStep_mode (b : Byte) (s : State) : (s.foldStep b).mode = .streaming := rfl
@[simp] theorem State.foldStep_inputs (b : Byte) (s : State) : (s.foldStep b).inputs = s.inputs := rfl
@[simp] theorem State.foldStep_out (b : Byte) (s : State) : (s.foldStep b).out = quietOut := rfl

@[simp] theorem State.initial_width (w : Width) (rom : List Host.Cell) : (State.initial w rom).width = w := rfl
@[simp] theorem State.initial_rom (w : Width) (rom : List Host.Cell) : (State.initial w rom).rom = rom := rfl
@[simp] theorem State.initial_acc (w : Width) (rom : List Host.Cell) : (State.initial w rom).acc = List.replicate w.lanes 0 := rfl
@[simp] theorem State.initial_mode (w : Width) (rom : List Host.Cell) : (State.initial w rom).mode = .awaitingFirstByte := rfl
@[simp] theorem State.initial_inputs (w : Width) (rom : List Host.Cell) : (State.initial w rom).inputs = [] := rfl
@[simp] theorem State.initial_out (w : Width) (rom : List Host.Cell) : (State.initial w rom).out = resetOut := rfl

end Sys2Proof.Machine
end

