-- ==== Sys2Proof/Laws/Ops.lean ====
section
/-!
SUPPORT. One lemma for each shared operation over lanes, addresses, strap and response: what it answers, so that later proofs
cite it instead of unfolding it.
-/

namespace Sys2Proof

theorem Width.lanes_pos (w : Width) : 1 ≤ w.lanes := by cases w <;> decide

theorem Width.lanes_le_max (w : Width) : w.lanes ≤ maxLanes := by cases w <;> decide

theorem Width.strap_toNat (w : Width) : w.strap.toNat = w.lanes := by cases w <;> decide

@[simp] theorem Width.ofStrap_strap (w : Width) : Width.ofStrap w.strap = some w := by cases w <;> decide

theorem Width.ofStrap_eq_none (c : BitVec 2) : Width.ofStrap c = none ↔ c = 0 := by revert c; decide

theorem Width.ofStrap_eq_some (c : BitVec 2) (w : Width) : Width.ofStrap c = some w ↔ c = w.strap := by
  revert c; cases w <;> decide

namespace Machine

/-- Index addition is mod 256 (R74). -/
theorem seedAddress_eq (b : Byte) (i : Nat) : seedAddress b i = BitVec.ofNat 8 ((b.toNat + i) % 256) := by
  apply BitVec.eq_of_toNat_eq
  simp [seedAddress]

theorem seedAddress_zero (b : Byte) : seedAddress b 0 = b := by
  apply BitVec.eq_of_toNat_eq
  simp [seedAddress_eq, Nat.mod_eq_of_lt b.isLt]

/-- The addresses of different lanes differ (R70, corner case 5). -/
theorem seedAddress_injective (b : Byte) (i j : Nat) (hi : i < maxLanes) (hj : j < maxLanes)
    (h : seedAddress b i = seedAddress b j) : i = j := by
  have := congrArg BitVec.toNat h
  simp only [seedAddress_eq, maxLanes, BitVec.toNat_ofNat] at *
  omega

/-- After all lanes are written, lane `i` is what was written to it. -/
theorem State.lane_of_acc (t : State) (n : Nat) (v : Nat → Byte) (h : t.acc = (List.range n).map v) (i : Nat)
    (hi : i < n) : t.lane i = v i := by
  simp [State.lane, h, hi]

@[simp] theorem State.writeLanes_lane (v : Nat → Byte) (s : State) (i : Nat) (hi : i < s.width.lanes) :
    (s.writeLanes v).lane i = v i :=
  State.lane_of_acc _ _ v rfl i hi

@[simp] theorem State.takePins_romByte (s : State) : s.takePins.romByte = s.romByte := rfl

@[simp] theorem State.presenting_romByte (ins : List StepInput) (s : State) :
    (s.presenting ins).romByte = s.romByte := rfl

@[simp] theorem State.takePins_lane (s : State) : s.takePins.lane = s.lane := rfl

@[simp] theorem State.presenting_lane (ins : List StepInput) (s : State) : (s.presenting ins).lane = s.lane := rfl

@[simp] theorem State.digest_length (s : State) : s.digest.length = s.width.lanes := by simp [State.digest]

/-- In a state whose lanes are exactly W, the digest is the lanes (R82). -/
theorem State.digest_eq_acc (s : State) (h : s.acc.length = s.width.lanes) : s.digest = s.acc := by
  apply List.ext_getElem (by simp [h])
  intro i h1 h2
  simp [State.digest, State.lane, List.getD_eq_getElem?_getD, h2]

theorem packBus_byte0 (x y z : Byte) : (x ++ y ++ z).extractLsb' 0 8 = z := by
  ext i hi
  rw [BitVec.getElem_extractLsb', BitVec.getLsbD_append, if_pos (by omega), Nat.zero_add]
  exact BitVec.getLsbD_eq_getElem hi

theorem packBus_byte1 (x y z : Byte) : (x ++ y ++ z).extractLsb' 8 8 = y := by
  ext i hi
  rw [BitVec.getElem_extractLsb', BitVec.getLsbD_append, if_neg (by omega), BitVec.getLsbD_append, if_pos (by omega),
    Nat.add_sub_cancel_left]
  exact BitVec.getLsbD_eq_getElem hi

theorem packBus_byte2 (x y z : Byte) : (x ++ y ++ z).extractLsb' 16 8 = x := by
  ext i hi
  rw [BitVec.getElem_extractLsb', BitVec.getLsbD_append, if_neg (by omega), BitVec.getLsbD_append, if_neg (by omega),
    show 16 + i - 8 - 8 = i by omega]
  exact BitVec.getLsbD_eq_getElem hi

/-- Byte k of the bus is byte k of the response, 0 past its end (R56). -/
theorem packBus_byte (bytes : List Byte) (k : Nat) (hk : k < maxLanes) :
    (packBus bytes).extractLsb' (8 * k) 8 = bytes.getD k 0 := by
  simp only [maxLanes] at hk
  match k, hk with
  | 0, _ => exact packBus_byte0 _ _ _
  | 1, _ => exact packBus_byte1 _ _ _
  | 2, _ => exact packBus_byte2 _ _ _

/-- What the bus carries is what was put on it, for the lengths a response has (R55, R56). -/
theorem respondingOut_response (bytes : List Byte) (h : bytes.length ≤ maxLanes) :
    (respondingOut bytes).response = bytes := by
  have hlen : (respondingOut bytes).rspLen.toNat = bytes.length := by
    simp only [respondingOut, BitVec.toNat_ofNat, maxLanes] at *
    omega
  apply List.ext_getElem (by simp [PortOut.response, hlen])
  intro k h1 h2
  simp only [PortOut.response, List.getElem_map, List.getElem_range]
  rw [show (respondingOut bytes).rspData = packBus bytes from rfl, packBus_byte _ _ (by omega)]
  simp [h2]

@[simp] theorem quietOut_response : quietOut.response = [] := rfl

@[simp] theorem resetOut_response : resetOut.response = [] := rfl

end Machine

end Sys2Proof
end

