-- ==== Sys2Proof/Laws/PerInstr.lean ====
section
/-!
SUPPORT. Per-instruction statements. `OpcodeRow`: the canonical word of a command is a word of its row of the opcode map,
and of no other row (spec/30_encoding.md R52).
-/

namespace Sys2Proof.Laws.OpcodeRow

/-- The command's canonical word matches its row under the mask, and its opcode is not a reserved one. -/
def Statement (i : Instr) : Prop := encode i &&& tableMask = tableMatch i ∧ cmdWordWellFormed (encode i) = true

theorem nop : Statement .nop := by constructor <;> decide

theorem absorb (b : Byte) : Statement (.absorb b) :=
  ⟨(mask_eq_iff (encode (.absorb b)) 1).2 (opField_cmdWord 1 b),
    (wellFormed_iff_opField _).2 (by simp [encode])⟩

theorem sreset : Statement .sreset := by constructor <;> decide

theorem sum : Statement .sum := by constructor <;> decide

theorem size : Statement .size := by constructor <;> decide

theorem bsize : Statement .bsize := by constructor <;> decide

end Sys2Proof.Laws.OpcodeRow
end

