-- ==== Sys2Proof/Laws/Step.lean ====
section
/-!
SUPPORT. What the port, a command and a step can do, said once (spec/00_scope.md R9): later proofs cite these and unfold
neither `exec` nor `step`.
-/

namespace Sys2Proof.Machine

/-- Everything a command can do, guards included. -/
theorem exec_cases {i : Instr} {s t : State} (h : exec i s = .next t) :
    (i = .nop ∧ t = s.quiet) ∨
    (∃ b, i = .absorb b ∧ s.mode = .awaitingFirstByte ∧ t = s.seedStep b) ∨
    (∃ b, i = .absorb b ∧ s.mode = .streaming ∧ t = s.foldStep b) ∨
    (i = .sreset ∧ t = s.clear.quiet) ∨
    (i = .sum ∧ t = s.respond s.digest) ∨
    (i = .size ∧ t = s.respond [widthByte s.width]) ∨
    (i = .bsize ∧ t = s.respond [blockSize]) := by
  cases i with
  | nop => simp [exec, execNop] at h; simp [h]
  | absorb b =>
    cases hm : s.mode <;> simp [exec, execAbsorb, hm] at h <;> simp [h]
  | sreset => simp [exec, execSreset] at h; simp [h]
  | sum => simp [exec, execSum] at h; simp [h]
  | size => simp [exec, execSize] at h; simp [h]
  | bsize => simp [exec, execBsize] at h; simp [h]

/-- The port with a good strap and one driver. -/
theorem portEvent_good (w : Width) (p : StepInput) (hs : p.cfgWidth = w.strap) (hd : p.otherDriver = false) :
    portEvent w p =
      if p.cmdValid then
        match decode p.cmd with
        | .error (.reservedOpcode op) => .error (.reservedOpcode op)
        | .ok i => .ok (if p.rst then .hardReset else .command i)
      else .ok (if p.rst then .hardReset else .noCommand) := by
  obtain ⟨rst, c, v, d, o⟩ := p
  cases hs
  cases hd
  cases w <;> rfl

theorem portEvent_command (w : Width) (p : StepInput) (i : Instr) (hs : p.cfgWidth = w.strap)
    (hd : p.otherDriver = false) (hr : p.rst = false) (hv : p.cmdValid = true) (hi : decode p.cmd = .ok i) :
    portEvent w p = .ok (.command i) := by
  simp [portEvent_good w p hs hd, hr, hv, hi]

theorem portEvent_noCommand (w : Width) (p : StepInput) (hs : p.cfgWidth = w.strap) (hd : p.otherDriver = false)
    (hr : p.rst = false) (hv : p.cmdValid = false) : portEvent w p = .ok .noCommand := by
  simp [portEvent_good w p hs hd, hr, hv]

/-- HardReset wins where no reserved word is presented. -/
theorem portEvent_hardReset (w : Width) (p : StepInput) (hs : p.cfgWidth = w.strap) (hd : p.otherDriver = false)
    (hr : p.rst = true) (hc : p.cmdValid = false ∨ ∃ i, decode p.cmd = .ok i) : portEvent w p = .ok .hardReset := by
  obtain hv | ⟨i, hi⟩ := hc
  · simp [portEvent_good w p hs hd, hr, hv]
  · cases hv : p.cmdValid <;> simp [portEvent_good w p hs hd, hr, hv, hi]

/-- A presented reserved word is refused, whatever `rst` is. -/
theorem portEvent_reserved (w : Width) (p : StepInput) (op : BitVec 3) (hs : p.cfgWidth = w.strap)
    (hd : p.otherDriver = false) (hv : p.cmdValid = true) (he : decode p.cmd = .error (.reservedOpcode op)) :
    portEvent w p = .error (.reservedOpcode op) := by
  simp [portEvent_good w p hs hd, hv, he]

/-- Everything the port can make of its pins, guards included. -/
theorem portEvent_ok_cases {w : Width} {p : StepInput} {e : PortEvent} (h : portEvent w p = .ok e) :
    p.cfgWidth = w.strap ∧ p.otherDriver = false ∧
      ((e = .hardReset ∧ p.rst = true ∧ (p.cmdValid = false ∨ ∃ i, decode p.cmd = .ok i)) ∨
       (e = .noCommand ∧ p.rst = false ∧ p.cmdValid = false) ∨
       (∃ i, e = .command i ∧ p.rst = false ∧ p.cmdValid = true ∧ decode p.cmd = .ok i)) := by
  have hs : p.cfgWidth = w.strap := by
    cases ho : Width.ofStrap p.cfgWidth with
    | none => simp [portEvent, ho] at h
    | some v =>
      by_cases hv : v = w
      · rw [hv] at ho
        exact (Width.ofStrap_eq_some _ _).1 ho
      · simp [portEvent, ho, hv] at h
  have hd : p.otherDriver = false := by
    cases hd : p.otherDriver with
    | false => rfl
    | true => simp [portEvent, hs, hd] at h
  refine ⟨hs, hd, ?_⟩
  rw [portEvent_good w p hs hd] at h
  cases hv : p.cmdValid with
  | false => cases hr : p.rst <;> simp [hr, hv] at h <;> simp [h]
  | true =>
    cases hi : decode p.cmd with
    | ok i => cases hr : p.rst <;> simp [hr, hv, hi] at h <;> simp [h]
    | error r => cases r; simp [hv, hi] at h

/-- Everything a step that goes on can do, guards included. -/
theorem step_cases {s t : State} (h : step s = .next t) :
    s.pins.cfgWidth = s.width.strap ∧ s.pins.otherDriver = false ∧
      ((s.pins.rst = true ∧ (s.pins.cmdValid = false ∨ ∃ i, decode s.pins.cmd = .ok i) ∧
          t = s.takePins.hardReset) ∨
       (s.pins.rst = false ∧ s.pins.cmdValid = false ∧ t = s.takePins.holdWithoutCommand) ∨
       (∃ i, s.pins.rst = false ∧ s.pins.cmdValid = true ∧ decode s.pins.cmd = .ok i ∧
         exec i s.takePins = .next t)) := by
  unfold step at h
  cases he : portEvent s.width s.pins with
  | error r => simp [he] at h
  | ok e =>
    obtain ⟨hs, hd, ⟨rfl, hr, hc⟩ | ⟨rfl, hr, hv⟩ | ⟨i, rfl, hr, hv, hi⟩⟩ := portEvent_ok_cases he <;>
      simp [he] at h <;> simp [*]

/-- A step never stops with a fault (R100): there is none. -/
theorem step_not_fault (s : State) (r : Fault) : step s ≠ .fault r := nomatch r

@[simp] theorem State.presenting_pins (p : StepInput) (ps : List StepInput) (s : State) :
    (s.presenting (p :: ps)).pins = p := rfl

@[simp] theorem State.presenting_takePins (p : StepInput) (ps : List StepInput) (s : State) :
    (s.presenting (p :: ps)).takePins = s.presenting ps := rfl

@[simp] theorem State.presenting_presenting (ps qs : List StepInput) (s : State) :
    (s.presenting ps).presenting qs = s.presenting qs := rfl

end Sys2Proof.Machine
end

