-- ==== Sys2Proof/Laws/Run.lean ====
section
/-!
SUPPORT. Runs of `step` and of command sequences (spec/70_reset_and_hazards.md R123): one step at a time, and what a safe
input is (spec/60_exceptions.md R110).
-/

namespace Sys2Proof.Machine

@[simp] theorem runSteps_zero (s : State) : runSteps 0 s = .next s := rfl

theorem runSteps_next {s t : State} (k : Nat) (h : step s = .next t) : runSteps (k + 1) s = runSteps k t := by
  have h' : Sys2Proof.core.step s = .next t := h
  simp only [runSteps, Host.Core.run, h']
  rfl

theorem runSteps_refused {s : State} {r : Refusal} (k : Nat) (h : step s = .refused r) :
    runSteps (k + 1) s = .refused r := by
  have h' : Sys2Proof.core.step s = .refused r := h
  simp only [runSteps, Host.Core.run, h']
  rfl

/-- A run that goes on takes a first step that goes on. -/
theorem runSteps_succ_cases {k : Nat} {s t : State} (h : runSteps (k + 1) s = .next t) :
    ∃ u, step s = .next u ∧ runSteps k u = .next t := by
  cases hs : step s with
  | next u => exact ⟨u, rfl, by rw [← h, runSteps_next k hs]⟩
  | fault r => exact nomatch r
  | refused r => rw [runSteps_refused k hs] at h; nomatch h

theorem execAll_cons {i : Instr} {s t : State} (rest : List Instr) (h : exec i s = .next t) :
    execAll (i :: rest) s = execAll rest t := by
  simp only [execAll, h]

/-- The guards of a safe input. -/
theorem safeInput_iff (w : Width) (p : StepInput) : safeInput w p = true ↔
    p.cfgWidth = w.strap ∧ p.otherDriver = false ∧
      (p.cmdValid = false ∨ cmdWordWellFormed p.cmd = true) := by
  cases hv : p.cmdValid <;> simp [safeInput, hv, and_assoc]

/-- The guards of a HardReset step. -/
theorem isHardReset_iff (w : Width) (p : StepInput) : isHardReset w p = true ↔
    p.cfgWidth = w.strap ∧ p.otherDriver = false ∧ (p.cmdValid = false ∨ cmdWordWellFormed p.cmd = true) ∧
      p.rst = true := by
  simp only [isHardReset, Bool.and_eq_true, safeInput_iff, and_assoc]

/-- Pins that make a HardReset step do so (R111, R112). -/
theorem portEvent_of_isHardReset {w : Width} {p : StepInput} (h : isHardReset w p = true) :
    portEvent w p = .ok .hardReset := by
  obtain ⟨hs, hd, hc, hr⟩ := (isHardReset_iff w p).1 h
  exact portEvent_hardReset w p hs hd hr (hc.imp_right (wellFormed_iff_decode p.cmd).1)

end Sys2Proof.Machine
end

