-- ==== Sys2Proof/Tests/Slice0.lean ====
section
/-!
SUPPORT. The model's own tests: the checks of WellFormed, words written out from the spec's encoding, one step of each command
with the results of spec/95_test_vectors.md (source noted at each), and for every statement with hypotheses a witness that
meets them.
-/

namespace Sys2Proof.Tests

open Sys2Proof Sys2Proof.Machine

/-- The next state of an outcome, if it is one. -/
def nextOf : Host.Outcome State Fault Refusal → Option State
  | .next t => some t
  | .fault _ => none
  | .refused _ => none

/-- The refusal of an outcome, if it is one. -/
def refusalOf : Host.Outcome State Fault Refusal → Option Refusal
  | .next _ => none
  | .fault _ => none
  | .refused r => some r

/-- An instance with the table of R45 and nothing presented. -/
def tiny (w : Width) (m : Mode) (acc : List Byte) : State :=
  { width := w, rom := [], acc := acc, mode := m, inputs := [], out := quietOut }

/-! ## WellFormed: an ill-formed term for each check -/

theorem test_reserved_words_ill_formed : cmdWordWellFormed 0x600 = false ∧ cmdWordWellFormed 0x7ff = false := by decide
theorem test_last_command_word_well_formed : cmdWordWellFormed 0x5ff = true := by decide
theorem test_strap_zero_ill_formed : strapWellFormed 0b00 = false ∧ strapWellFormed 0b01 = true := by decide
theorem test_byte_number_256_ill_formed : byteNumberWellFormed 256 = false ∧ byteNumberWellFormed 255 = true := by decide
theorem test_every_command_well_formed : Instr.wellFormed (.absorb 0xff) = true := by decide
theorem test_second_driver_unsafe : safeInput .one { StepInput.idle .one with otherDriver := true } = false := by decide

/-! ## Words of the spec (95_test_vectors.md 2.6), op and din written out -/

theorem test_decode_nop : decode 0b00000000000 = .ok .nop := by decide
theorem test_decode_absorb : decode 0b00101100110 = .ok (.absorb 0x66) := by decide
theorem test_decode_sreset : decode 0b01000000000 = .ok .sreset := by decide
theorem test_decode_sum : decode 0b01100000000 = .ok .sum := by decide
theorem test_decode_size : decode 0b10000000000 = .ok .size := by decide
theorem test_decode_bsize : decode 0b10100000001 = .ok .bsize := by decide
theorem test_decode_reserved6 : decode 0b11000000000 = .error (.reservedOpcode 6) := by decide
theorem test_decode_reserved7 : decode 0b11111111111 = .error (.reservedOpcode 7) := by decide
theorem test_encode_absorb : encode (.absorb 0x66) = 0x166 := by decide
theorem test_encode_bsize : encode .bsize = 0x500 := by decide
theorem test_table_word_absorb : decodeTableWord 16 0x1ff = some (.absorb 0xff) := by decide
theorem test_table_word_too_wide : decodeTableWord 16 0x866 = none := by decide

/-! ## The table (R33, R34, R35; the self-checks of R45) -/

theorem test_table_has_256_bytes : recommendedTable.length = 256 := by decide +kernel
theorem test_table_sum : (recommendedTable.map BitVec.toNat).sum = 32640 := by decide +kernel

/-- Every byte is found back at its address, so no value stands twice (R33). -/
theorem test_table_no_value_twice : ∀ a : Addr, recommendedTable.idxOf (unlistedByte a) = a.toNat := by decide +kernel

theorem test_table_injective : Function.Injective (Memory.read []) := by
  intro a b h
  apply BitVec.eq_of_toNat_eq
  rw [← test_table_no_value_twice a, ← test_table_no_value_twice b]
  exact congrArg (fun v => recommendedTable.idxOf v) h

/-- The table of R45 meets R33, R34 and R35. -/
theorem test_table_admissible : AdmissibleTable (Memory.read []) :=
  ⟨test_table_injective, by decide, by decide, by decide, by decide⟩

theorem test_listed_byte_read : Memory.read [(0x66, 0x01)] 0x66 = 0x01 ∧ Memory.read [(0x66, 0x01)] 0x67 = 0xca := by decide

theorem test_list_equal_to_the_table_not_canonical : Memory.wf [(0x66, 0xf8)] = false := by decide

/-! ## One step of each command (95_test_vectors.md Part 2) -/

/-- 2.1: W = 3, ABSORB 0xfe from reset, the index wraps: lane 2 reads address 0x00. -/
theorem test_absorb_seed_wraps :
    (nextOf (exec (.absorb 0xfe) (tiny .three .awaitingFirstByte [0, 0, 0]))).map (fun t => (t.acc, t.mode)) =
      some ([0x8a, 0xef, 0x62], .streaming) := by decide

/-- 2.2: W = 3, S / f8 ca 33, ABSORB 0x66 gives S / 00 32 cb: not `T[acc XOR b]`, and the mode stays. -/
theorem test_absorb_fold :
    (nextOf (exec (.absorb 0x66) (tiny .three .streaming [0xf8, 0xca, 0x33]))).map (fun t => (t.acc, t.mode)) =
      some ([0x00, 0x32, 0xcb], .streaming) := by decide

/-- 2.4: W = 2, S / e8 da, SRESET gives A / 00 00 and no response. -/
theorem test_sreset :
    (nextOf (exec .sreset (tiny .two .streaming [0xe8, 0xda]))).map (fun t => (t.acc, t.mode, t.out.response)) =
      some ([0x00, 0x00], .awaitingFirstByte, []) := by decide

/-- 2.4: W = 1, S / e8, NOP. -/
theorem test_nop :
    (nextOf (exec .nop (tiny .one .streaming [0xe8]))).map (fun t => (t.acc, t.mode, t.out.rspValid)) =
      some ([0xe8], .streaming, false) := by decide

/-- 2.5: W = 3, S / f8 ca 33, SUM: rsp_data = 0x33caf8, rsp_len = 3. -/
theorem test_sum_bus :
    (nextOf (exec .sum (tiny .three .streaming [0xf8, 0xca, 0x33]))).map (fun t => (t.out.rspLen, t.out.rspData)) =
      some (3, 0x33caf8) := by decide

/-- 2.5: W = 2, S / e8 da, SUM: response e8 da, rsp_data = 0x00dae8. -/
theorem test_sum_two_lanes :
    (nextOf (exec .sum (tiny .two .streaming [0xe8, 0xda]))).map (fun t => (t.out.response, t.out.rspData)) =
      some ([0xe8, 0xda], 0x00dae8) := by decide

/-- 2.5: SIZE at W = 2 and W = 3. -/
theorem test_size :
    (nextOf (exec .size (tiny .two .streaming [1, 2]))).map (fun t => t.out) =
      some { cmdReady := true, rspValid := true, rspLen := 1, rspData := 0x000002 } := by decide

/-- 2.5: BSIZE. -/
theorem test_bsize :
    (nextOf (exec .bsize (tiny .three .awaitingFirstByte [0, 0, 0]))).map (fun t => t.out) =
      some { cmdReady := true, rspValid := true, rspLen := 1, rspData := 0x000001 } := by decide

/-! ## The port -/

/-- The pins of a HardReset step in which `ABSORB 0x64` is presented too. -/
def resetPinsWithAbsorb : StepInput :=
  { rst := true, cfgWidth := 0b11, cmdValid := true, cmd := 0x164, otherDriver := false }

/-- 2.4: W = 3, S / f8 ca 33, HardReset with ABSORB 0x64 presented: A / 00 00 00, the ABSORB is dropped. -/
theorem test_hardReset_drops_command :
    (nextOf (step ((tiny .three .streaming [0xf8, 0xca, 0x33]).presenting [resetPinsWithAbsorb]))).map
      (fun t => (t.acc, t.mode, t.out.cmdReady)) = some ([0, 0, 0], .awaitingFirstByte, false) := by decide

/-- 2.4: W = 1, S / e8, NOP with din = 0xff (word 0x0ff). -/
theorem test_step_nop_word :
    (nextOf (step ((tiny .one .streaming [0xe8]).withFetchWord 16 0x0ff))).map (fun t => (t.acc, t.mode)) =
      some ([0xe8], .streaming) := by decide

/-- 2.1: the word 0x166 as the first command after reset, W = 3: S / f8 ca 33. -/
theorem test_step_absorb_word_after_reset :
    (nextOf (step (State.reset.withFetchWord 16 0x166))).map (fun t => (t.acc, t.mode, t.inputs)) =
      some ([0xf8, 0xca, 0x33], .streaming, []) := by decide

/-- 2.6: the reserved words are refused. -/
theorem test_step_reserved_refused :
    refusalOf (step (State.reset.withFetchWord 16 0x600)) = some (.reservedOpcode 6) ∧
    refusalOf (step (State.reset.withFetchWord 16 0x7ff)) = some (.reservedOpcode 7) := by decide

/-- R98: a reserved word is refused in a HardReset step too; one that `cmd_valid` = 0 does not present is not (R51). -/
theorem test_step_reserved_in_reset :
    refusalOf (step (State.reset.presenting [{ resetPinsWithAbsorb with cmd := 0x7ff }])) = some (.reservedOpcode 7) ∧
    refusalOf (step (State.reset.presenting [{ resetPinsWithAbsorb with cmd := 0x6ff, cmdValid := false }])) = none := by
  decide

/-- 2.6 and R62: strap 0 refused; R62: a changed strap refused; R118: a second driver refused. -/
theorem test_step_port_refusals :
    refusalOf (step (State.reset.presenting [{ StepInput.idle .three with cfgWidth := 0 }])) = some .illegalStrap ∧
    refusalOf (step (State.reset.presenting [StepInput.idle .two])) = some .strapChanged ∧
    refusalOf (step (State.reset.presenting [{ StepInput.idle .three with otherDriver := true }])) = some .secondDriver := by
  decide

/-- R37: the addresses of ABSORB 0xfe at W = 3 (95_test_vectors.md P4). -/
theorem test_absorb_reads : absorbReads .three .awaitingFirstByte 0xfe = [0xfe, 0xff, 0x00] := by decide

/-! ## The assembly text (R60) -/

theorem test_asm_quoted :
    parseAsmLine ['A', 'B', 'S', 'O', 'R', 'B', ' ', asmQuote, 'f', asmQuote, ' ', ';', 'x'] =
      some (some (.command (.absorb 0x66) none)) := by decide

theorem test_asm_decimal_256_refused : parseAsmLine ['A', 'B', 'S', 'O', 'R', 'B', ' ', '2', '5', '6'] = none := by decide

/-- Log entry 14: a command line may carry a response column, a directive line may not. -/
theorem test_asm_response_column :
    parseAsmLine (['S', 'U', 'M'] ++ [' ', '-', '>', ' ', 'f', '8']) = some (some (.command .sum (some [0xf8]))) ∧
    parseAsmLine (hardresetText ++ [' ', '-', '>', ' ', 'f', '8']) = none ∧
    parseAsmLine (widthText ++ [' ', '1', ' ', '-', '>', ' ', 'f', '8']) = none := by decide

/-! ## Witnesses: for every statement with hypotheses, what meets them -/

/-- An instance after HardReset with a HardReset presented. -/
def underReset : State := (tiny .three .streaming [0xf8, 0xca, 0x33]).presenting [resetPinsWithAbsorb]

theorem witness_BothResetsLeaveTheStatedValues : isHardReset underReset.width underReset.pins = true := by decide

theorem witness_ResetStateIsTheHardResetState :
    underReset.width = .three ∧ underReset.rom = [] ∧ isHardReset underReset.width underReset.pins = true := by decide

theorem witness_HardResetDropsTheCommandAndForgets :
    isHardReset underReset.width resetPinsWithAbsorb = true ∧
    [resetPinsWithAbsorb, StepInput.hardReset .three] ≠ [] ∧
    ∀ p ∈ [resetPinsWithAbsorb, StepInput.hardReset .three], isHardReset underReset.width p = true := by decide

/-- A state in AwaitingFirstByte meets the invariant. -/
theorem witness_awaiting_invariant (w : Width) :
    Invariant (tiny w .awaitingFirstByte (List.replicate w.lanes 0)) where
  lanesExist := by simp [tiny]
  awaitingMeansZero := by simp [tiny]
  romCanonical := rfl
  quietWhenNotValid := by simp [tiny, quietOut]
  validMeansBytes := by simp [tiny, quietOut]
  restOfBusZero := by
    intro k _ _
    ext i hi
    simp [tiny, quietOut]
  noResponseInReset := by simp [tiny, quietOut]

theorem witness_SresetZeroesTheLanes :
    ∃ s : State, Invariant s ∧ s.mode = .awaitingFirstByte := ⟨_, witness_awaiting_invariant .two, rfl⟩

theorem witness_SeedStepLoadsEveryLaneFromTheTable :
    ∃ s : State, s.mode = .awaitingFirstByte ∧ Function.Injective s.romByte ∧ 2 < s.width.lanes :=
  ⟨tiny .three .awaitingFirstByte [0, 0, 0], rfl, test_table_injective, by decide⟩

theorem witness_FoldStepXorsOneTableByteIntoEveryLane :
    ∃ s : State, s.mode = .streaming ∧ s.romByte 0x45 = 0 ∧ Function.Injective s.romByte ∧ 2 < s.width.lanes :=
  ⟨tiny .three .streaming [0xf8, 0xca, 0x33], rfl, by decide, test_table_injective, by decide⟩

theorem witness_SumIsNonDestructive :
    ([0x64] : List Byte) ≠ [] ∧ ∃ s : State, Invariant s ∧ s.mode = .awaitingFirstByte :=
  ⟨by decide, _, witness_awaiting_invariant .three, rfl⟩

theorem witness_SizeRespondsWithTheWidth : ∃ s t : State, step s = .next t ∧ s.mode ≠ t.mode :=
  ⟨State.reset.withFetchWord 16 0x166, _, rfl, by decide⟩

theorem witness_QueryAndNopFrame :
    ∀ i : Instr, i = .nop ∨ i = .sum ∨ i = .size ∨ i = .bsize → ∃ t, exec i State.reset = .next t := by
  rintro i (rfl | rfl | rfl | rfl) <;> exact ⟨_, rfl⟩

theorem witness_AbsorbAndSresetFrame :
    (∃ t, exec (.absorb 0xff) State.reset = .next t) ∧
    (∃ t, exec (.absorb 0xff) (tiny .one .streaming [1]) = .next t) ∧ ∃ t, exec .sreset State.reset = .next t :=
  ⟨⟨_, rfl⟩, ⟨_, rfl⟩, _, rfl⟩

theorem witness_RomIsNeverWritten : ∃ t, runSteps 1 (State.reset.withFetchWord 16 0x166) = .next t := ⟨_, rfl⟩

theorem witness_OnlyAbsorbAndResetsWriteState :
    ∃ s t : State, step s = .next t ∧ t.mode ≠ s.mode ∧ t.acc ≠ s.acc :=
  ⟨State.reset.withFetchWord 16 0x166, _, rfl, by decide, by decide⟩

theorem witness_TransitionTable :
    (∃ s : State, s.mode = .awaitingFirstByte ∧ Invariant s) ∧ ∃ s : State, s.mode = .streaming :=
  ⟨⟨_, rfl, witness_awaiting_invariant .three⟩, tiny .one .streaming [1], rfl⟩

theorem witness_ResponseBusPacking :
    (2 < Width.three.lanes) ∧ (Width.one.lanes ≤ 1 ∧ 1 < 3) ∧ (Width.two.lanes ≤ 2 ∧ 2 < 3) := by decide

theorem witness_ReadyAndResponseByStep :
    (∃ t, step underReset = .next t) ∧ (∃ t, step (State.reset.withFetchWord 16 0x300) = .next t) ∧
    ∃ t, step (State.reset.withFetchWord 16 0x000) = .next t := ⟨⟨_, rfl⟩, ⟨_, rfl⟩, _, rfl⟩

theorem witness_StepRunsTheDecodedCommand :
    let s := State.reset.withFetchWord 16 0x166
    s.pins.cfgWidth = s.width.strap ∧ s.pins.otherDriver = false ∧ s.pins.rst = false ∧ s.pins.cmdValid = true ∧
      decode s.pins.cmd = .ok (.absorb 0x66) := by decide

theorem witness_PlacedWordRunsInTheNextStep : decodeTableWord 16 0x166 = some (.absorb 0x66) := by decide

theorem witness_StepWithoutCommandHoldsTheState :
    State.reset.pins.cfgWidth = State.reset.width.strap ∧ State.reset.pins.otherDriver = false ∧
      State.reset.pins.rst = false ∧ State.reset.pins.cmdValid = false := by decide

theorem witness_CommandsAndSafeRunsAreTotal :
    ∀ p ∈ [StepInput.hardReset .two, StepInput.command .two (.absorb 0xff), StepInput.command .two .sum,
      StepInput.idle .two], safeInput .two p = true := by decide

/-- Two states that differ in their last outputs and in what is presented later, one step that goes on and one refused. -/
theorem witness_StepDependsOnTheBlockAndItsPinsOnly :
    (∃ s t : State, s.sameBlock t ∧ s.pins = t.pins ∧ s.out ≠ t.out ∧ s.inputs ≠ t.inputs ∧ ∃ u, step s = .next u) ∧
    ∃ s t : State, s.sameBlock t ∧ s.pins = t.pins ∧ s.out ≠ t.out ∧ ∃ r, step s = .refused r := by
  refine ⟨⟨State.reset, tiny .three .awaitingFirstByte [0, 0, 0] |>.presenting [StepInput.idle .three], ?_, ?_, ?_, ?_,
    _, rfl⟩, State.reset.withFetchWord 16 0x700, (tiny .three .awaitingFirstByte [0, 0, 0]).withFetchWord 16 0x700, ?_, ?_,
    ?_, _, rfl⟩
  · exact ⟨rfl, rfl, rfl, rfl⟩
  · decide
  · decide
  · decide
  · exact ⟨rfl, rfl, rfl, rfl⟩
  · decide
  · decide

theorem witness_DecodeFollowsTheOpcodeMap :
    (0x0a5 &&& 0x700 : CmdWord) = 0x000 ∧ (0x1ff &&& 0x700 : CmdWord) = 0x100 ∧ (0x2ff &&& 0x700 : CmdWord) = 0x200 ∧
    (0x300 &&& 0x700 : CmdWord) = 0x300 ∧ (0x400 &&& 0x700 : CmdWord) = 0x400 ∧ (0x5ff &&& 0x700 : CmdWord) = 0x500 ∧
    (0x600 &&& 0x700 : CmdWord) = 0x600 ∧ (0x7ff &&& 0x700 : CmdWord) = 0x700 := by decide

theorem witness_DinIsIgnoredWithoutOperand : (7 : BitVec 3) ≠ 1 ∧ ∀ b, Instr.bsize ≠ .absorb b := by
  exact ⟨by decide, fun b h => nomatch h⟩

theorem witness_DecodeAndEncodeAgree :
    decode 0x1ff = .ok (.absorb 0xff) ∧ decode 0x500 = .ok .bsize ∧ (0x500 : CmdWord).setWidth 8 = (0 : Byte) ∧
    Instr.wellFormed .bsize = true := by decide

theorem witness_AbsorbReadsOnlyItsAddresses :
    let s := tiny .three .awaitingFirstByte [0, 0, 0]
    (∀ a ∈ absorbReads s.width s.mode 0xfe, Memory.read [(0x05, 0x01)] a = s.romByte a) ∧
      Memory.read [(0x05, 0x01)] 0x05 ≠ s.romByte 0x05 := by decide

theorem witness_EveryTableHasOneCanonicalRom :
    Memory.wf [(0x00, 0x01), (0xff, 0x02)] = true ∧
      ∀ a, Memory.read [(0x00, 0x01), (0xff, 0x02)] a = Memory.read [(0x00, 0x01), (0xff, 0x02)] a :=
  ⟨by decide, fun _ => rfl⟩

theorem witness_EveryStepKeepsTheInvariant : ∃ s t : State, Invariant s ∧ step s = .next t :=
  ⟨_, _, witness_awaiting_invariant .three, rfl⟩

theorem witness_ResetMeetsTheInvariant : Memory.wf [(0xff, 0x01)] = true := by decide

theorem witness_LanesAreTheHashOfTheBytesSinceReset :
    (∀ p ∈ [StepInput.command .two (.absorb 0x6f), StepInput.command .two .sreset], safeInput .two p = true) ∧
    (tiny .two .streaming [0xf8, 0xca]).acc = hashOf .two (Memory.read []) [0x66] ∧
    (tiny .two .streaming [0xf8, 0xca]).mode = modeAfter [0x66] ∧ isHardReset .two (StepInput.hardReset .two) = true := by
  decide

theorem witness_LaneRelationDependsOnTheFirstByteAlone :
    let ps := [StepInput.command .three (.absorb 0xff), StepInput.idle .three, StepInput.command .three (.absorb 0x00)]
    (∀ p ∈ ps, safeInput .three p = true) ∧ absorbedSinceReset [] ps = [0xff, 0x00] ∧
      Function.Injective (Memory.read []) := by
  exact ⟨by decide, by decide, test_table_injective⟩

theorem witness_WhatADigestTellsAboutTheMode :
    (∀ p ∈ [StepInput.command .two (.absorb 0xff)], safeInput .two p = true) ∧ 2 ≤ Width.two.lanes ∧
    Function.Injective (Memory.read []) ∧ (∀ b ∈ (State.initial .two []).digest, b = 0) :=
  ⟨by decide, by decide, test_table_injective, by decide⟩

theorem witness_OrderAfterTheFirstByteDoesNotMatter :
    (tiny .three .awaitingFirstByte [0, 0, 0]).mode = .awaitingFirstByte ∧
      List.Perm ([0x01, 0x02, 0x03] : List Byte) [0x03, 0x01, 0x02] := by decide

theorem witness_NarrowDigestIsAPrefixOfTheWideOne : Width.one.lanes ≤ Width.three.lanes := by decide

theorem witness_ResetIdempotence : 1 ≤ 1 := by decide

theorem witness_InstancesAreIndependent :
    let sys : System 2 := #v[State.reset, tiny .one .streaming [1]]
    (0 : Fin 2) ≠ 1 ∧ (∃ a, System.stepAt 0 sys = .next a) ∧ ∃ b, System.stepAt 1 sys = .next b :=
  ⟨by decide, ⟨_, rfl⟩, _, rfl⟩

theorem witness_KnownAnswersHoldForEveryAdmissibleTable : AdmissibleTable (Memory.read []) := test_table_admissible

end Sys2Proof.Tests
end

/-!
SUPPORT. Equations of `exec` and `step`, one per case, and what a command and a step leave unchanged.
-/

namespace Sys2Proof.Machine

/-! ## Equations of the commands and of a step -/

@[simp] theorem exec_nop (s : State) : exec .nop s = .next s.quiet := rfl

@[simp] theorem exec_sreset (s : State) : exec .sreset s = .next s.clear.quiet := rfl

@[simp] theorem exec_sum (s : State) : exec .sum s = .next (s.respond s.digest) := rfl

@[simp] theorem exec_size (s : State) : exec .size s = .next (s.respond [widthByte s.width]) := rfl

@[simp] theorem exec_bsize (s : State) : exec .bsize s = .next (s.respond [blockSize]) := rfl

theorem exec_absorb_awaiting {s : State} (hm : s.mode = .awaitingFirstByte) (b : Byte) :
    exec (.absorb b) s = .next (s.seedStep b) := by
  simp only [exec, execAbsorb, hm]

theorem exec_absorb_streaming {s : State} (hm : s.mode = .streaming) (b : Byte) :
    exec (.absorb b) s = .next (s.foldStep b) := by
  simp only [exec, execAbsorb, hm]

/-- ABSORB is the seed step or the fold step, by the mode before it (R69). -/
theorem exec_absorb_cases {b : Byte} {s t : State} (h : exec (.absorb b) s = .next t) :
    (s.mode = .awaitingFirstByte ∧ t = s.seedStep b) ∨ (s.mode = .streaming ∧ t = s.foldStep b) := by
  simpa using exec_cases h

/-- The six commands are total (R58, R100). -/
theorem exec_total (i : Instr) (s : State) : ∃ t, exec i s = .next t := by
  cases i with
  | absorb b =>
    cases hm : s.mode with
    | awaitingFirstByte => exact ⟨_, exec_absorb_awaiting hm b⟩
    | streaming => exact ⟨_, exec_absorb_streaming hm b⟩
  | nop | sreset | sum | size | bsize => exact ⟨_, rfl⟩

theorem step_of_hardReset {s : State} (h : portEvent s.width s.pins = .ok .hardReset) :
    step s = .next s.takePins.hardReset := by
  simp only [step, h]

/-- Pins that ask for a HardReset make one (R111, R112). -/
theorem step_of_isHardReset {s : State} (h : isHardReset s.width s.pins = true) :
    step s = .next s.takePins.hardReset :=
  step_of_hardReset (portEvent_of_isHardReset h)

theorem step_of_noCommand {s : State} (h : portEvent s.width s.pins = .ok .noCommand) :
    step s = .next s.takePins.holdWithoutCommand := by
  simp only [step, h]

theorem step_of_command {s : State} {i : Instr} (h : portEvent s.width s.pins = .ok (.command i)) :
    step s = exec i s.takePins := by
  simp only [step, h]

/-- Only the port refuses, never a command. -/
theorem step_refused_iff {s : State} {r : Refusal} :
    step s = .refused r ↔ portEvent s.width s.pins = .error r := by
  cases he : portEvent s.width s.pins with
  | error q => simp [step, he]
  | ok e =>
    cases e with
    | hardReset => simp [step_of_hardReset he]
    | noCommand => simp [step_of_noCommand he]
    | command i =>
      obtain ⟨t, ht⟩ := exec_total i s.takePins
      simp [step_of_command he, ht]

/-- A step on safe pins goes on (R110). -/
theorem step_goes_on_of_safeInput {s : State} (h : safeInput s.width s.pins = true) : ∃ t, step s = .next t := by
  obtain ⟨hs, hd, hc⟩ := (safeInput_iff s.width s.pins).1 h
  rw [wellFormed_iff_decode] at hc
  cases hr : s.pins.rst with
  | true => exact ⟨_, step_of_hardReset (portEvent_hardReset _ _ hs hd hr hc)⟩
  | false =>
    cases hv : s.pins.cmdValid with
    | false => exact ⟨_, step_of_noCommand (portEvent_noCommand _ _ hs hd hr hv)⟩
    | true =>
      obtain ⟨i, hi⟩ := hc.resolve_left (by simp [hv])
      rw [step_of_command (portEvent_command _ _ i hs hd hr hv hi)]
      exact exec_total i s.takePins

/-! ## Frames -/

/-- No command changes the width, the table or what the outside has yet to present (R5, R31). -/
theorem exec_frame {i : Instr} {s t : State} (h : exec i s = .next t) :
    t.width = s.width ∧ t.rom = s.rom ∧ t.inputs = s.inputs := by
  obtain ⟨-, rfl⟩ | ⟨b, -, -, rfl⟩ | ⟨b, -, -, rfl⟩ | ⟨-, rfl⟩ | ⟨-, rfl⟩ | ⟨-, rfl⟩ | ⟨-, rfl⟩ := exec_cases h <;>
    exact ⟨rfl, rfl, rfl⟩

/-- No step changes the width or the table, and each takes exactly its own pins. -/
theorem step_frame {s t : State} (h : step s = .next t) :
    t.width = s.width ∧ t.rom = s.rom ∧ t.inputs = s.inputs.tail := by
  obtain ⟨-, -, ⟨-, -, rfl⟩ | ⟨-, -, rfl⟩ | ⟨i, -, -, -, hx⟩⟩ := step_cases h
  · exact ⟨rfl, rfl, rfl⟩
  · exact ⟨rfl, rfl, rfl⟩
  · exact exec_frame hx

/-- A command that is neither ABSORB nor SRESET drives the outputs and writes nothing else (R13, R15). -/
theorem exec_eq_of_not_writesState {i : Instr} {s t : State} (hi : writesState i = false)
    (h : exec i s = .next t) : t = { s with out := t.out } := by
  cases i with
  | absorb b | sreset => exact nomatch hi
  | nop | sum | size | bsize =>
    cases h
    rfl

/-- ABSORB and SRESET leave exactly W lanes (R12) and respond with nothing (R55). -/
theorem exec_writesState_lanes_out {i : Instr} {s t : State} (hi : writesState i = true)
    (h : exec i s = .next t) : t.acc.length = s.width.lanes ∧ t.out = quietOut := by
  cases i with
  | absorb b =>
    obtain ⟨-, rfl⟩ | ⟨-, rfl⟩ := exec_absorb_cases h
    · simp
    · simp
  | sreset =>
    cases h
    simp
  | nop | sum | size | bsize => exact nomatch hi

/-- A command whose lanes or flag differ after it is ABSORB or SRESET (R13, R15). -/
theorem writesState_of_exec_changes {i : Instr} {s t : State} (h : exec i s = .next t)
    (hne : t.mode ≠ s.mode ∨ t.acc ≠ s.acc) : writesState i = true := by
  by_contra hi
  rw [exec_eq_of_not_writesState (by simpa using hi) h] at hne
  simp at hne

theorem State.romByte_eq_of_rom {s t : State} (h : t.rom = s.rom) : t.romByte = s.romByte := by
  funext a
  simp only [State.romByte, h]

theorem State.presenting_inputs_self {s : State} {ps : List StepInput} (h : s.inputs = ps) :
    s.presenting ps = s := by
  subst h
  rfl

/-- A word that spells a command is in the command's row of the opcode map (R52). -/
theorem mask_of_decode {w : CmdWord} {i : Instr} (h : decode w = .ok i) : w &&& 0x700 = tableMatch i := by
  obtain ⟨ho, rfl⟩ | ⟨ho, rfl⟩ | ⟨ho, rfl⟩ | ⟨ho, rfl⟩ | ⟨ho, rfl⟩ | ⟨ho, rfl⟩ := (decode_ok_iff w i).1 h <;>
    exact (mask_eq_iff w _).2 ho

theorem din_of_decode_absorb {w : CmdWord} {b : Byte} (h : decode w = .ok (.absorb b)) : w.setWidth 8 = b := by
  obtain ⟨-, hb⟩ : opField w = 1 ∧ b = dinField w := by simpa using (decode_ok_iff w _).1 h
  rw [hb, dinField_eq_setWidth]

/-! ## What a command and a step depend on -/

/-- States of one block differ in what is presented and in the last outputs only. -/
theorem State.sameBlock_iff {s t : State} :
    s.sameBlock t ↔ t = { s with inputs := t.inputs, out := t.out } := by
  constructor
  · rintro ⟨hw, hr, ha, hm⟩
    cases t
    simp_all
  · intro h
    rw [h]
    exact ⟨rfl, rfl, rfl, rfl⟩

theorem State.sameBlock.takePins {s t : State} (h : s.sameBlock t) : s.takePins.sameBlock t.takePins := h

/-- A command depends on the block alone (R19). -/
theorem exec_congr {i : Instr} {s t s' : State} (hst : s.sameBlock t) (h : exec i s = .next s') :
    ∃ t', exec i t = .next t' ∧ s'.sameBlock t' ∧ s'.out = t'.out := by
  rw [State.sameBlock_iff.1 hst]
  cases i with
  | absorb b =>
    obtain ⟨hm, rfl⟩ | ⟨hm, rfl⟩ := exec_absorb_cases h
    · exact ⟨_, exec_absorb_awaiting (by exact hm) b, ⟨rfl, rfl, rfl, rfl⟩, rfl⟩
    · exact ⟨_, exec_absorb_streaming (by exact hm) b, ⟨rfl, rfl, rfl, rfl⟩, rfl⟩
  | nop | sreset | sum | size | bsize =>
    cases h
    exact ⟨_, rfl, ⟨rfl, rfl, rfl, rfl⟩, rfl⟩

/-- A step depends on the block and on the pins of this step alone (R19, R40). -/
theorem step_congr {s t s' : State} (hst : s.sameBlock t) (hp : s.pins = t.pins) (h : step s = .next s') :
    ∃ t', step t = .next t' ∧ s'.sameBlock t' ∧ s'.out = t'.out := by
  obtain ⟨hw, hr, ha, hm⟩ := id hst
  have hport : portEvent t.width t.pins = portEvent s.width s.pins := by rw [hw, hp]
  cases he : portEvent s.width s.pins with
  | error r => simp [step_refused_iff.2 he] at h
  | ok e =>
    rw [he] at hport
    cases e with
    | hardReset =>
      rw [step_of_hardReset he] at h
      cases h
      exact ⟨_, step_of_hardReset hport, ⟨hw, hr, by simp [hw], rfl⟩, rfl⟩
    | noCommand =>
      rw [step_of_noCommand he] at h
      cases h
      exact ⟨_, step_of_noCommand hport, hst, rfl⟩
    | command i =>
      rw [step_of_command he] at h
      rw [step_of_command hport]
      exact exec_congr hst.takePins h

end Sys2Proof.Machine

/-!
SUPPORT. The parts of the invariant that each kind of step re-establishes.
-/

namespace Sys2Proof.Machine

/-- The part of the invariant that speaks of the output pins (R55, R56, R114). -/
structure OutputsWellFormed (o : PortOut) : Prop where
  quietWhenNotValid : o.rspValid = false → o.rspLen = 0 ∧ o.rspData = 0
  validMeansBytes : o.rspValid = true → 1 ≤ o.rspLen.toNat
  restOfBusZero : ∀ k, o.rspLen.toNat ≤ k → k < maxLanes → o.rspData.extractLsb' (8 * k) 8 = 0
  noResponseInReset : o.cmdReady = false → o.rspValid = false

/-- The invariant is its part about the block and its part about the outputs. -/
theorem invariant_iff (s : State) : Invariant s ↔
    s.acc.length = s.width.lanes ∧ (s.mode = .awaitingFirstByte → ∀ b ∈ s.acc, b = 0) ∧
      Memory.wf s.rom = true ∧ OutputsWellFormed s.out :=
  ⟨fun ⟨hl, hz, hr, ho1, ho2, ho3, ho4⟩ => ⟨hl, hz, hr, ho1, ho2, ho3, ho4⟩,
    fun ⟨hl, hz, hr, ho1, ho2, ho3, ho4⟩ => ⟨hl, hz, hr, ho1, ho2, ho3, ho4⟩⟩

theorem outputsWellFormed_quietOut : OutputsWellFormed quietOut :=
  ⟨fun _ => ⟨rfl, rfl⟩, nofun, fun _ _ _ => by simp [quietOut], nofun⟩

theorem outputsWellFormed_resetOut : OutputsWellFormed resetOut :=
  ⟨fun _ => ⟨rfl, rfl⟩, nofun, fun _ _ _ => by simp [resetOut], fun _ => rfl⟩

theorem respondingOut_rspLen_toNat {bytes : List Byte} (h : bytes.length ≤ maxLanes) :
    (respondingOut bytes).rspLen.toNat = bytes.length := by
  simp only [respondingOut, BitVec.toNat_ofNat, maxLanes] at *
  omega

/-- A response of 1 to 3 bytes is driven well (R55, R56). -/
theorem outputsWellFormed_respondingOut {bytes : List Byte} (hpos : 1 ≤ bytes.length)
    (hmax : bytes.length ≤ maxLanes) : OutputsWellFormed (respondingOut bytes) where
  quietWhenNotValid := nofun
  validMeansBytes _ := by rwa [respondingOut_rspLen_toNat hmax]
  restOfBusZero k hlen hk := by
    rw [respondingOut_rspLen_toNat hmax] at hlen
    exact (packBus_byte bytes k hk).trans (List.getD_eq_default _ _ hlen)
  noResponseInReset := nofun

/-- The invariant does not speak of the presented pins, and of the outputs only that they are well-formed. -/
theorem Invariant.of_sameBlock {s t : State} (hs : Invariant s) (hst : s.sameBlock t)
    (ho : OutputsWellFormed t.out) : Invariant t := by
  obtain ⟨hw, hr, ha, hm⟩ := hst
  obtain ⟨hl, hz, hrom, -⟩ := (invariant_iff s).1 hs
  rw [hw, ha] at hl
  rw [ha, hm] at hz
  rw [hr] at hrom
  exact (invariant_iff t).2 ⟨hl, hz, hrom, ho⟩

/-- Zeroed lanes meet the invariant in either mode (R20). -/
theorem Invariant.of_zero_lanes {t : State} (ha : t.acc = (List.range t.width.lanes).map fun _ => 0)
    (hr : Memory.wf t.rom = true) (ho : OutputsWellFormed t.out) : Invariant t :=
  (invariant_iff t).2 ⟨by simp [ha], by simp [ha], hr, ho⟩

/-- Any W lanes meet the invariant in Streaming. -/
theorem Invariant.of_streaming {t : State} (hm : t.mode = .streaming) (ha : t.acc.length = t.width.lanes)
    (hr : Memory.wf t.rom = true) (ho : OutputsWellFormed t.out) : Invariant t :=
  (invariant_iff t).2 ⟨ha, by simp [hm], hr, ho⟩

theorem exec_keeps_invariant {i : Instr} {s t : State} (hs : Invariant s) (h : exec i s = .next t) :
    Invariant t := by
  have hone (b : Byte) : OutputsWellFormed (respondingOut [b]) :=
    outputsWellFormed_respondingOut (Nat.le_refl 1) (by simp [maxLanes])
  have hdigest : OutputsWellFormed (respondingOut s.digest) :=
    outputsWellFormed_respondingOut (by simpa using s.width.lanes_pos) (by simpa using s.width.lanes_le_max)
  obtain ⟨-, rfl⟩ | ⟨b, -, -, rfl⟩ | ⟨b, -, -, rfl⟩ | ⟨-, rfl⟩ | ⟨-, rfl⟩ | ⟨-, rfl⟩ | ⟨-, rfl⟩ := exec_cases h
  · exact hs.of_sameBlock ⟨rfl, rfl, rfl, rfl⟩ outputsWellFormed_quietOut
  · exact .of_streaming rfl (by simp) hs.romCanonical outputsWellFormed_quietOut
  · exact .of_streaming rfl (by simp) hs.romCanonical outputsWellFormed_quietOut
  · exact .of_zero_lanes rfl hs.romCanonical outputsWellFormed_quietOut
  · exact hs.of_sameBlock ⟨rfl, rfl, rfl, rfl⟩ hdigest
  · exact hs.of_sameBlock ⟨rfl, rfl, rfl, rfl⟩ (hone _)
  · exact hs.of_sameBlock ⟨rfl, rfl, rfl, rfl⟩ (hone _)

theorem Invariant.takePins {s : State} (hs : Invariant s) : Invariant s.takePins :=
  hs.of_sameBlock ⟨rfl, rfl, rfl, rfl⟩ ((invariant_iff s).1 hs).2.2.2

theorem step_keeps_invariant {s t : State} (hs : Invariant s) (h : step s = .next t) : Invariant t := by
  obtain ⟨-, -, ⟨-, -, rfl⟩ | ⟨-, -, rfl⟩ | ⟨i, -, -, -, hx⟩⟩ := step_cases h
  · exact .of_zero_lanes rfl hs.romCanonical outputsWellFormed_resetOut
  · exact hs.of_sameBlock ⟨rfl, rfl, rfl, rfl⟩ outputsWellFormed_quietOut
  · exact exec_keeps_invariant hs.takePins hx

end Sys2Proof.Machine

/-!
SUPPORT. The closed form of R75 and the states that hold it, along commands, steps and runs.
-/

namespace Sys2Proof.Machine

/-! ## The closed form -/

theorem xorAll_append (l m : List Byte) : xorAll (l ++ m) = xorAll l ^^^ xorAll m := by
  induction l with
  | nil => simp [xorAll]
  | cons b l ih => simp [xorAll, ih, BitVec.xor_assoc]

theorem laneHash_cons (T : Addr → Byte) (i : Nat) (b0 : Byte) (rest : List Byte) :
    laneHash T i (b0 :: rest) = T (seedAddress b0 i) ^^^ xorAll (rest.map T) := by
  rw [seedAddress_eq]
  rfl

theorem laneHash_singleton (T : Addr → Byte) (i : Nat) (b : Byte) : laneHash T i [b] = T (seedAddress b i) := by
  simp [laneHash_cons, xorAll]

/-- One more byte is XORed into every lane (R71, R75). -/
theorem laneHash_append_singleton (T : Addr → Byte) (i : Nat) {h : List Byte} (hne : h ≠ []) (b : Byte) :
    laneHash T i (h ++ [b]) = laneHash T i h ^^^ T b := by
  obtain ⟨b0, rest, rfl⟩ := List.exists_cons_of_ne_nil hne
  simp [laneHash_cons, xorAll_append, xorAll, BitVec.xor_assoc]

/-- Two equal bytes cancel in lane 0, whatever the table (R22). -/
theorem laneHash_zero_pair_self (T : Addr → Byte) (b : Byte) : laneHash T 0 [b, b] = 0 := by
  simp [laneHash_cons, seedAddress_zero, xorAll]

/-- With a table without repeated values the lanes of a non-empty sequence are pairwise distinct (R70, R76). -/
theorem laneHash_injective_lane {T : Addr → Byte} (hT : Function.Injective T) {h : List Byte} (hne : h ≠ [])
    {i j : Nat} (hi : i < maxLanes) (hj : j < maxLanes) (heq : laneHash T i h = laneHash T j h) : i = j := by
  obtain ⟨b0, rest, rfl⟩ := List.exists_cons_of_ne_nil hne
  rw [laneHash_cons, laneHash_cons, BitVec.xor_left_inj] at heq
  exact seedAddress_injective b0 i j hi hj (hT heq)

theorem hashOf_nil (w : Width) (T : Addr → Byte) : hashOf w T [] = List.replicate w.lanes 0 := by
  simp [hashOf, laneHash]

@[simp] theorem hashOf_length (w : Width) (T : Addr → Byte) (h : List Byte) :
    (hashOf w T h).length = w.lanes := by
  simp [hashOf]

theorem laneHash_mem_hashOf {w : Width} {i : Nat} (hi : i < w.lanes) (T : Addr → Byte) (h : List Byte) :
    laneHash T i h ∈ hashOf w T h :=
  List.mem_map_of_mem (List.mem_range.2 hi)

theorem modeAfter_eq_awaiting {h : List Byte} : modeAfter h = .awaitingFirstByte ↔ h = [] := by
  cases h <;> simp [modeAfter]

theorem modeAfter_eq_streaming {h : List Byte} : modeAfter h = .streaming ↔ h ≠ [] := by
  cases h <;> simp [modeAfter]

/-! ## The bytes absorbed since the last reset -/

/-- The bytes absorbed since the last reset, `soFar` before the command and this after it (R19, R21). -/
def absorbedByCommand (soFar : List Byte) : Instr → List Byte
  | .absorb b => soFar ++ [b]
  | .sreset => []
  | .nop | .sum | .size | .bsize => soFar

theorem absorbedBy_rst {p : StepInput} (hr : p.rst = true) (h : List Byte) : absorbedBy h p = [] := by
  simp [absorbedBy, hr]

theorem absorbedBy_noCommand {p : StepInput} (hr : p.rst = false) (hv : p.cmdValid = false) (h : List Byte) :
    absorbedBy h p = h := by
  simp [absorbedBy, hr, hv]

/-- What a step with a command does to the absorbed bytes is what the command does. -/
theorem absorbedBy_command {p : StepInput} {i : Instr} (hr : p.rst = false) (hv : p.cmdValid = true)
    (hi : decode p.cmd = .ok i) (h : List Byte) : absorbedBy h p = absorbedByCommand h i := by
  simp only [absorbedBy, hr, hv, mask_of_decode hi]
  cases i with
  | absorb b =>
    rw [din_of_decode_absorb hi]
    rfl
  | nop | sreset | sum | size | bsize => rfl

/-! ## The states that hold it -/

/-- The lanes and the flag are the closed form of the byte sequence `h` (R75). -/
def State.HoldsHash (s : State) (h : List Byte) : Prop :=
  s.acc = hashOf s.width s.romByte h ∧ s.mode = modeAfter h

theorem State.HoldsHash.lane {s : State} {h : List Byte} (hs : s.HoldsHash h) {i : Nat} (hi : i < s.width.lanes) :
    s.lane i = laneHash s.romByte i h :=
  s.lane_of_acc _ _ hs.1 i hi

theorem State.HoldsHash.digest {s : State} {h : List Byte} (hs : s.HoldsHash h) :
    s.digest = hashOf s.width s.romByte h := by
  rw [s.digest_eq_acc (by rw [hs.1, hashOf_length]), hs.1]

/-- Zeroed lanes in AwaitingFirstByte are the closed form of no byte. -/
theorem State.HoldsHash.nil {s : State} (ha : s.acc = List.replicate s.width.lanes 0)
    (hm : s.mode = .awaitingFirstByte) : s.HoldsHash [] :=
  ⟨ha.trans (hashOf_nil _ _).symm, hm⟩

theorem State.initial_holdsHash (w : Width) (rom : List Host.Cell) : (State.initial w rom).HoldsHash [] :=
  .nil rfl rfl

theorem State.clear_acc_eq_replicate (s : State) : s.clear.acc = List.replicate s.width.lanes 0 := by simp

theorem State.seedStep_holdsHash (s : State) (b : Byte) : (s.seedStep b).HoldsHash [b] :=
  ⟨List.map_congr_left fun i _ => (laneHash_singleton s.romByte i b).symm, rfl⟩

theorem State.foldStep_holdsHash {s : State} {h : List Byte} (hs : s.HoldsHash h) (hne : h ≠ []) (b : Byte) :
    (s.foldStep b).HoldsHash (h ++ [b]) := by
  refine ⟨List.map_congr_left fun i hi => ?_, (modeAfter_eq_streaming.2 (by simp)).symm⟩
  have hfold := laneHash_append_singleton s.romByte i hne b
  rw [← hs.lane (List.mem_range.1 hi)] at hfold
  exact hfold.symm

theorem exec_holdsHash {i : Instr} {s t : State} {h : List Byte} (hs : s.HoldsHash h) (hx : exec i s = .next t) :
    t.HoldsHash (absorbedByCommand h i) := by
  obtain ⟨rfl, rfl⟩ | ⟨b, rfl, hm, rfl⟩ | ⟨b, rfl, hm, rfl⟩ | ⟨rfl, rfl⟩ | ⟨rfl, rfl⟩ | ⟨rfl, rfl⟩ | ⟨rfl, rfl⟩ :=
    exec_cases hx
  · exact hs
  · obtain rfl : h = [] := modeAfter_eq_awaiting.1 (hs.2.symm.trans hm)
    exact s.seedStep_holdsHash b
  · exact State.foldStep_holdsHash hs (modeAfter_eq_streaming.1 (hs.2.symm.trans hm)) b
  · exact .nil s.clear_acc_eq_replicate rfl
  · exact hs
  · exact hs
  · exact hs

theorem step_holdsHash {s t : State} {h : List Byte} (hs : s.HoldsHash h) (hx : step s = .next t) :
    t.HoldsHash (absorbedBy h s.pins) := by
  obtain ⟨-, -, ⟨hr, -, rfl⟩ | ⟨hr, hv, rfl⟩ | ⟨i, hr, hv, hi, hx⟩⟩ := step_cases hx
  · rw [absorbedBy_rst hr]
    exact .nil s.clear_acc_eq_replicate rfl
  · rw [absorbedBy_noCommand hr hv]
    exact hs
  · rw [absorbedBy_command hr hv hi]
    exact exec_holdsHash (s := s.takePins) hs hx

/-- A step on presented safe pins goes on, with the rest still presented. -/
theorem step_presenting_safe {s : State} {p : StepInput} (ps : List StepInput)
    (hp : safeInput s.width p = true) :
    ∃ t, step (s.presenting (p :: ps)) = .next t ∧ t.width = s.width ∧ t.rom = s.rom ∧ t.presenting ps = t := by
  obtain ⟨t, ht⟩ := step_goes_on_of_safeInput (s := s.presenting (p :: ps)) hp
  obtain ⟨hw, hr, hin⟩ := step_frame ht
  exact ⟨t, ht, hw, hr, State.presenting_inputs_self hin⟩

/-- A run over safe pins keeps the closed form, of the bytes absorbed since the last reset (R21, R75). -/
theorem runSteps_holdsHash {s : State} {h : List Byte} (ps : List StepInput)
    (hps : ∀ p ∈ ps, safeInput s.width p = true) (hs : s.HoldsHash h) :
    ∃ t, runSteps ps.length (s.presenting ps) = .next t ∧ t.HoldsHash (absorbedSinceReset h ps) ∧
      t.width = s.width ∧ t.rom = s.rom := by
  induction ps generalizing s h with
  | nil => exact ⟨_, rfl, hs, rfl, rfl⟩
  | cons p ps ih =>
    obtain ⟨hp, hps⟩ := List.forall_mem_cons.1 hps
    obtain ⟨u, hu, huw, hur, hpres⟩ := step_presenting_safe ps hp
    have huh : u.HoldsHash (absorbedBy h p) := step_holdsHash (s := s.presenting (p :: ps)) hs hu
    obtain ⟨t, ht, hth, htw, htr⟩ := ih (huw.symm ▸ hps) huh
    rw [hpres] at ht
    exact ⟨t, (runSteps_next _ hu).trans ht, hth, htw.trans huw, htr.trans hur⟩

theorem State.hardReset_holdsHash (s : State) : s.hardReset.HoldsHash [] :=
  .nil s.clear_acc_eq_replicate rfl

/-! ## Systems of several blocks -/

/-- A system steps on exactly when the chosen block does, and that block alone is replaced (R24, R108). -/
theorem System.stepAt_next_iff {n : Nat} {k : Fin n} {sys a : System n} :
    System.stepAt k sys = .next a ↔ ∃ t, step sys[k] = .next t ∧ sys.set k t = a := by
  unfold System.stepAt
  cases step sys[k] <;> simp

end Sys2Proof.Machine

/-!
CERTIFICATES. The statements about the state, the invariant and what a run computes (spec/10_state.md).
-/

namespace Sys2Proof.Certificates

open Sys2Proof.Machine

/-- Settles O33, by the cases of a step: it leaves the block alone, writes W lanes and ends in Streaming, or zeroes the
lanes. -/
theorem everyStepKeepsTheInvariant : Obligations.EveryStepKeepsTheInvariant :=
  fun _ _ hs h => step_keeps_invariant hs h

/-- Settles O35, by induction on the presented pins: every step keeps the closed form of the bytes since the last
reset. -/
theorem lanesAreTheHashOfTheBytesSinceReset : Obligations.LanesAreTheHashOfTheBytesSinceReset := by
  have fromHash : ∀ (s : State) (h : List Byte) (ps : List StepInput), s.HoldsHash h →
      (∀ p ∈ ps, safeInput s.width p = true) →
      ∃ t, runSteps ps.length (s.presenting ps) = .next t ∧
        t.acc = hashOf s.width s.romByte (absorbedSinceReset h ps) ∧ t.mode = modeAfter (absorbedSinceReset h ps) := by
    intro s h ps hs hps
    obtain ⟨t, ht, ⟨hacc, hmode⟩, hw, hr⟩ := runSteps_holdsHash ps hps hs
    rw [hw, State.romByte_eq_of_rom hr] at hacc
    exact ⟨t, ht, hacc, hmode⟩
  refine ⟨fun s h ps hps ha hm => fromHash s h ps ⟨ha, hm⟩ hps,
    fun w rom ps => fromHash _ [] ps (State.initial_holdsHash w rom), fun s p ps hp hps => ?_⟩
  obtain ⟨t, ht, hhash⟩ := fromHash s.hardReset [] ps s.hardReset_holdsHash hps
  have hstep : step (s.presenting (p :: ps)) = .next (s.hardReset.presenting ps) := step_of_isHardReset hp
  exact ⟨t, (runSteps_next _ hstep).trans ht, hhash⟩

/-- Settles O15: a step without a command holds the block, and of the commands only the two that write it can change it. -/
theorem onlyAbsorbAndResetsWriteState : Obligations.OnlyAbsorbAndResetsWriteState := by
  intro s t h hne
  obtain ⟨-, -, ⟨hr, -, -⟩ | ⟨-, -, rfl⟩ | ⟨i, -, hv, hi, hx⟩⟩ := step_cases h
  · exact .inl hr
  · simp at hne
  · have hw : writesState i = true := writesState_of_exec_changes hx hne
    have hmask := mask_of_decode hi
    cases i with
    | absorb b => exact .inr ⟨hv, .inl hmask⟩
    | sreset => exact .inr ⟨hv, .inr hmask⟩
    | nop | sum | size | bsize => exact nomatch hw

/-- Settles O24: the port reads W and the pins, a command the block. -/
theorem stepDependsOnTheBlockAndItsPinsOnly : Obligations.StepDependsOnTheBlockAndItsPinsOnly := by
  refine fun s t hst hp => ⟨fun s' h => step_congr hst hp h, fun r h => ?_⟩
  rw [step_refused_iff] at h ⊢
  rwa [← hst.1, ← hp]

/-- Settles O37: a digest is the closed form of the absorbed bytes; of no byte it is zero, and of one byte or more its lanes
0 and 1 differ. -/
theorem whatADigestTellsAboutTheMode : Obligations.WhatADigestTellsAboutTheMode := by
  refine ⟨fun w rom ps hps => ?_, fun rom b => ⟨((State.initial .one rom).seedStep b).foldStep b, rfl, rfl, ?_⟩⟩
  · obtain ⟨t, ht, hhash, hw, hr⟩ := runSteps_holdsHash ps hps (State.initial_holdsHash w rom)
    generalize absorbedSinceReset [] ps = bytes at hhash
    have hdigest : t.digest = hashOf w (Memory.read rom) bytes := by
      rw [hhash.digest, hw, State.romByte_eq_of_rom hr]
      rfl
    refine ⟨t, ht, ?_⟩
    rw [hdigest, hhash.2, modeAfter_eq_streaming, modeAfter_eq_awaiting]
    refine ⟨?_, fun h2 hT hzero => ?_⟩
    · rintro ⟨b, hb, hb0⟩ rfl
      rw [hashOf_nil] at hb
      exact hb0 (List.eq_of_mem_replicate hb)
    · by_contra hne
      have hlane0 := hzero _ (laneHash_mem_hashOf (by omega : 0 < w.lanes) _ _)
      have hlane1 := hzero _ (laneHash_mem_hashOf (by omega : 1 < w.lanes) _ _)
      exact absurd (laneHash_injective_lane hT hne (by decide) (by decide) (hlane0.trans hlane1.symm)) (by decide)
  · rw [(State.foldStep_holdsHash (State.seedStep_holdsHash _ b) (List.cons_ne_nil b []) b).digest]
    exact congrArg (fun x => [x]) (laneHash_zero_pair_self _ b)

/-- Settles O46: a step of one block is a write at its index, and writes at different indices commute. -/
theorem instancesAreIndependent : Obligations.InstancesAreIndependent := by
  intro n j k sys a b hjk ha hb
  obtain ⟨t, ht, rfl⟩ := System.stepAt_next_iff.1 ha
  obtain ⟨u, hu, rfl⟩ := System.stepAt_next_iff.1 hb
  have hframe (l : Fin n) (v : State) (i : Fin n) (hi : i ≠ l) : (sys.set l v)[i] = sys[i] :=
    Vector.getElem_set_ne _ _ fun h => hi (Fin.ext h.symm)
  refine ⟨hframe j t, by simpa using ht, (sys.set j t).set k u, ?_, ?_⟩
  · exact System.stepAt_next_iff.2 ⟨u, by rwa [hframe j t k hjk.symm], rfl⟩
  · exact System.stepAt_next_iff.2 ⟨t, by rwa [hframe k u j hjk],
      Vector.set_comm _ _ fun h => hjk (Fin.ext h.symm)⟩

/-- Settles O1: both resets are the one reset operation. -/
theorem bothResetsLeaveTheStatedValues : Obligations.BothResetsLeaveTheStatedValues :=
  ⟨fun s h => ⟨_, step_of_isHardReset h, rfl, s.clear_acc_eq_replicate, rfl, fun _ => rfl, rfl, rfl, rfl, rfl⟩,
    fun s => ⟨_, exec_sreset s, rfl, s.clear_acc_eq_replicate, rfl, fun _ => rfl⟩⟩

/-- Settles O12: these commands drive the outputs only. -/
theorem queryAndNopFrame : Obligations.QueryAndNopFrame := by
  intro i s t hi h
  have hw : writesState i = false := by obtain rfl | rfl | rfl | rfl := hi <;> rfl
  rw [exec_eq_of_not_writesState hw h]
  exact ⟨rfl, fun _ => rfl, rfl, rfl, fun _ => rfl, rfl⟩

/-- Settles O13: these commands write all W lanes and the flag, and drive quiet outputs. -/
theorem absorbAndSresetFrame : Obligations.AbsorbAndSresetFrame := by
  intro i s t hi h
  have hw : writesState i = true := by obtain ⟨b, rfl⟩ | rfl := hi <;> rfl
  obtain ⟨hlanes, hout⟩ := exec_writesState_lanes_out hw h
  obtain ⟨hwidth, hrom, hinputs⟩ := exec_frame h
  rw [hout]
  exact ⟨hlanes, hwidth, congrFun (State.romByte_eq_of_rom hrom), hinputs, rfl, rfl, rfl, rfl⟩

end Sys2Proof.Certificates

/-!
SUPPORT. Presented commands, command sequences and the one-shot hash: what they compute and what they leave unchanged.
-/

namespace Sys2Proof.Machine

/-! ## Runs and command sequences -/

/-- No run changes the width or the table (R5, R31). -/
theorem runSteps_frame {k : Nat} {s t : State} (h : runSteps k s = .next t) : t.width = s.width ∧ t.rom = s.rom := by
  induction k generalizing s with
  | zero =>
    cases h
    exact ⟨rfl, rfl⟩
  | succ k ih =>
    obtain ⟨u, hu, hrun⟩ := runSteps_succ_cases h
    obtain ⟨huw, hur, -⟩ := step_frame hu
    obtain ⟨htw, htr⟩ := ih hrun
    exact ⟨htw.trans huw, htr.trans hur⟩

/-- The canonical word of a command spells the command (R52, R54). -/
@[simp] theorem decode_encode (i : Instr) : decode (encode i) = .ok i :=
  (decode_ok_iff _ _).2 (by cases i <;> simp [encode])

/-- A step with a command presented is the command, with the rest still to be presented. -/
theorem step_presenting_command (s : State) (i : Instr) (ps : List StepInput) :
    step (s.presenting (StepInput.command s.width i :: ps)) = exec i (s.presenting ps) :=
  step_of_command (portEvent_command _ _ i rfl rfl rfl rfl (decode_encode i))

/-- A command does not look at what the outside has yet to present (R40). -/
theorem exec_presenting {i : Instr} {s t : State} (h : exec i s = .next t) (ps : List StepInput) :
    exec i (s.presenting ps) = .next (t.presenting ps) := by
  obtain ⟨t', ht', hblock, hout⟩ := exec_congr (s := s) (t := s.presenting ps) ⟨rfl, rfl, rfl, rfl⟩ h
  have heq : t' = t.presenting ps := by
    rw [State.sameBlock_iff.1 hblock, (exec_frame ht').2.2, ← hout]
    rfl
  rw [ht', heq]

/-- A sequence after another starts from the state the first leaves. -/
theorem execAll_append {is : List Instr} {s t : State} (h : execAll is s = .next t) (js : List Instr) :
    execAll (is ++ js) s = execAll js t := by
  induction is generalizing s with
  | nil =>
    cases h
    rfl
  | cons i is ih =>
    obtain ⟨u, hu⟩ := exec_total i s
    rw [execAll_cons is hu] at h
    exact (execAll_cons _ hu).trans (ih h)

/-- A command sequence goes on, leaving the width and the table alone, and takes the closed form of the absorbed bytes
along (R75). -/
theorem execAll_holdsHash {s : State} {h : List Byte} (is : List Instr) (hs : s.HoldsHash h) :
    ∃ t, execAll is s = .next t ∧ t.HoldsHash (is.foldl absorbedByCommand h) ∧ t.width = s.width ∧ t.rom = s.rom := by
  induction is generalizing s h with
  | nil => exact ⟨s, rfl, hs, rfl, rfl⟩
  | cons i is ih =>
    obtain ⟨u, hu⟩ := exec_total i s
    obtain ⟨huw, hur, -⟩ := exec_frame hu
    obtain ⟨t, ht, hhash, htw, htr⟩ := ih (exec_holdsHash hs hu)
    exact ⟨t, (execAll_cons is hu).trans ht, hhash, htw.trans huw, htr.trans hur⟩

theorem foldl_absorbedByCommand_absorb (h bs : List Byte) :
    (bs.map Instr.absorb).foldl absorbedByCommand h = h ++ bs := by
  induction bs generalizing h with
  | nil => simp
  | cons b bs ih => simp [absorbedByCommand, ih]

/-- The one-shot hash is the closed form (R75, R97). -/
theorem oneShotHash_eq_hashOf (w : Width) (rom : List Host.Cell) (x : List Byte) :
    oneShotHash w rom x = .next (hashOf w (Memory.read rom) x) := by
  obtain ⟨t, ht, hhash, hw, hr⟩ := execAll_holdsHash (x.map Instr.absorb) (State.initial_holdsHash w rom)
  rw [foldl_absorbedByCommand_absorb, List.nil_append] at hhash
  have hrun : execAll (HostOp.commands (.write x) ++ HostOp.commands (.sum [])) (State.initial w rom) =
      .next (t.respond t.digest) := execAll_append ht [.sum]
  have hresponse : (t.respond t.digest).out.response = t.digest :=
    respondingOut_response _ (by simpa using t.width.lanes_le_max)
  simp only [oneShotHash, hrun]
  rw [hresponse, hhash.digest, hw, State.romByte_eq_of_rom hr]
  rfl

/-! ## The addresses an ABSORB reads -/

theorem seedAddress_mem_absorbReads {w : Width} {i : Nat} (hi : i < w.lanes) (b : Byte) :
    seedAddress b i ∈ absorbReads w .awaitingFirstByte b :=
  List.mem_map_of_mem (List.mem_range.2 hi)

theorem foldAddress_mem_absorbReads (w : Width) (b : Byte) : foldAddress b ∈ absorbReads w .streaming b :=
  List.mem_singleton_self _

/-! ## The lanes of a byte sequence -/

/-- A narrow digest is the beginning of the wide one (R79). -/
theorem hashOf_eq_take (w : Width) (T : Addr → Byte) (x : List Byte) :
    hashOf w T x = [laneHash T 0 x, laneHash T 1 x, laneHash T 2 x].take w.lanes := by
  cases w <;> rfl

theorem xorAll_perm {l m : List Byte} (h : l.Perm m) : xorAll l = xorAll m := by
  induction h with
  | nil => rfl
  | cons b _ ih => simp only [xorAll, ih]
  | swap b c l =>
    simp only [xorAll]
    ac_rfl
  | trans _ _ ihl ihm => exact ihl.trans ihm

/-- The order of the bytes after the first does not matter (R78). -/
theorem laneHash_cons_perm (T : Addr → Byte) (i : Nat) (b0 : Byte) {l m : List Byte} (h : l.Perm m) :
    laneHash T i (b0 :: l) = laneHash T i (b0 :: m) := by
  rw [laneHash_cons, laneHash_cons, xorAll_perm (h.map T)]

/-- Two equal bytes after the first cancel (R71, R78). -/
@[simp] theorem laneHash_cons_pair (T : Addr → Byte) (i : Nat) (b0 b : Byte) (l : List Byte) :
    laneHash T i (b0 :: b :: b :: l) = laneHash T i (b0 :: l) := by
  simp [laneHash_cons, xorAll]

theorem laneHash_pair (T : Addr → Byte) (i : Nat) (b0 b : Byte) :
    laneHash T i [b0, b] = T (seedAddress b0 i) ^^^ T b := by
  simp [laneHash_cons, xorAll]

/-- Lane `i` and lane 0 differ by the table bytes the first byte seeds them with (R76). -/
theorem laneHash_eq_xor_lane_zero (T : Addr → Byte) (i : Nat) (b0 : Byte) (l : List Byte) :
    laneHash T i (b0 :: l) = T b0 ^^^ T (seedAddress b0 i) ^^^ laneHash T 0 (b0 :: l) := by
  simp only [laneHash_cons, seedAddress_zero]
  rw [BitVec.xor_comm (T b0), BitVec.xor_assoc, ← BitVec.xor_assoc (T b0), BitVec.xor_self, BitVec.zero_xor]

/-- A one-shot hash by its three lanes. -/
theorem oneShotHash_of_lanes {rom : List Host.Cell} {x : List Byte} {d0 d1 d2 : Byte}
    (h0 : laneHash (Memory.read rom) 0 x = d0) (h1 : laneHash (Memory.read rom) 1 x = d1)
    (h2 : laneHash (Memory.read rom) 2 x = d2) (w : Width) :
    oneShotHash w rom x = .next ([d0, d1, d2].take w.lanes) := by
  rw [oneShotHash_eq_hashOf, hashOf_eq_take, h0, h1, h2]

/-! ## "quick brown fox" -/

/-- The letters of "quick brown fox" after the first. -/
def quickBrownFoxTail : List Byte :=
  [0x75, 0x69, 0x63, 0x6b, 0x20, 0x62, 0x72, 0x6f, 0x77, 0x6e, 0x20, 0x66, 0x6f, 0x78]

/-- Those of them that stand once, in the order of R35's first relation: the two spaces and the two "o" are gone. -/
def quickBrownFoxOnce : List Byte := [0x75, 0x69, 0x63, 0x6b, 0x62, 0x72, 0x77, 0x6e, 0x66, 0x78]

theorem quickBrownFoxTail_perm : quickBrownFoxTail.Perm (0x20 :: 0x20 :: 0x6f :: 0x6f :: quickBrownFoxOnce) := by
  decide

/-- Lane 0 of "quick brown fox" is the left side of R35's first relation. -/
theorem laneHash_zero_quickBrownFox {T : Addr → Byte} (hT : AdmissibleTable T) :
    laneHash T 0 (0x71 :: quickBrownFoxTail) = 0x92 := by
  rw [laneHash_cons_perm T 0 0x71 quickBrownFoxTail_perm, laneHash_cons_pair, laneHash_cons_pair, laneHash_cons,
    seedAddress_zero, ← hT.relationLane0]
  simp [quickBrownFoxOnce, xorAll, BitVec.xor_assoc]

end Sys2Proof.Machine

/-!
CERTIFICATES. The statements about the memory and the order of its accesses (spec/20_memory.md).
-/

namespace Sys2Proof.Certificates

open Sys2Proof.Machine

/-- Settles O14, by induction on the number of steps: no step writes the table or the width. -/
theorem romIsNeverWritten : Obligations.RomIsNeverWritten := by
  intro k s t h
  obtain ⟨hw, hr⟩ := runSteps_frame h
  exact ⟨congrFun (State.romByte_eq_of_rom hr), hw⟩

/-- Settles O31: the seed step reads the table at one listed address a lane, the fold step at one, the other commands
nowhere. -/
theorem absorbReadsOnlyItsAddresses : Obligations.AbsorbReadsOnlyItsAddresses := by
  refine fun s rom => ⟨fun b hread => ?_, fun i hi => ?_⟩
  · cases hm : s.mode with
    | awaitingFirstByte =>
      rw [hm] at hread
      exact ⟨_, _, exec_absorb_awaiting hm b, exec_absorb_awaiting rfl b,
        List.map_congr_left fun i hi => hread _ (seedAddress_mem_absorbReads (List.mem_range.1 hi) b), rfl, rfl⟩
    | streaming =>
      rw [hm] at hread
      have hbyte := hread _ (foldAddress_mem_absorbReads s.width b)
      exact ⟨_, _, exec_absorb_streaming hm b, exec_absorb_streaming rfl b,
        List.map_congr_left fun i _ => congrArg (s.lane i ^^^ ·) hbyte, rfl, rfl⟩
  · cases i with
    | absorb b => exact absurd rfl (hi b)
    | nop | sreset | sum | size | bsize => exact ⟨_, _, rfl, rfl, rfl, rfl, rfl⟩

/-- Settles O43, by induction on the commands: a step is the presented command, which leaves the rest presented. -/
theorem presentedCommandsRunInOrder : Obligations.PresentedCommandsRunInOrder := by
  intro s is ps
  induction is generalizing s with
  | nil => exact ⟨s.presenting ps, rfl, rfl, rfl⟩
  | cons i is ih =>
    obtain ⟨u, hu⟩ := exec_total i s
    obtain ⟨t, hall, hrun, hin⟩ := ih u
    rw [(exec_frame hu).1] at hrun
    have hstep := (step_presenting_command s i (is.map (StepInput.command s.width) ++ ps)).trans
      (exec_presenting hu _)
    exact ⟨t, (execAll_cons is (exec_presenting hu ps)).trans hall, (runSteps_next _ hstep).trans hrun, hin⟩

/-- Settles O47: the closed form turns each known answer into pinned entries and relations of the table, equal bytes after
the first cancelling. -/
theorem knownAnswersHoldForEveryAdmissibleTable : Obligations.KnownAnswersHoldForEveryAdmissibleTable := by
  intro rom hT w
  have hpinned := hT.pinned
  simp only [BitVec.ofNat_eq_ofNat] at hpinned
  refine ⟨?foo, ?food, ?doof, ?fox⟩
  case foo => apply oneShotHash_of_lanes <;> simp [laneHash_singleton, seedAddress, hpinned]
  case food => apply oneShotHash_of_lanes <;> simp [laneHash_pair, seedAddress, hpinned]
  case doof => apply oneShotHash_of_lanes <;> simp [laneHash_pair, seedAddress, hpinned]
  case fox =>
    have hlane0 := laneHash_zero_quickBrownFox hT
    refine oneShotHash_of_lanes hlane0 ?_ ?_ w
    · rw [laneHash_eq_xor_lane_zero]
      exact congrArg₂ (· ^^^ ·) hT.relationLane1 hlane0
    · rw [laneHash_eq_xor_lane_zero]
      exact congrArg₂ (· ^^^ ·) hT.relationLane2 hlane0

end Sys2Proof.Certificates

/-!
SUPPORT. The decoder by the mask and match of the opcode map, the grounds on which the port refuses, and what the output pins
carry (spec/30_encoding.md R50 to R62).
-/

namespace Sys2Proof

@[simp] theorem Width.strap_ne_zero (w : Width) : w.strap ≠ 0#2 := by cases w <;> decide

/-- The strap holds W as a plain binary number (R62). -/
theorem Width.ofNat_lanes (w : Width) : BitVec.ofNat 2 w.lanes = w.strap := by cases w <;> rfl

namespace Machine

/-! ## The decoder -/

/-- Words of one row of the opcode map have one opcode (R52). -/
theorem opField_eq_of_mask_eq {v w : CmdWord} (h : v &&& 0x700 = w &&& 0x700) : opField v = opField w :=
  (mask_eq_iff v _).1 (h.trans (mask_eq_opField w))

/-- A word is its masked part and its low byte (R50). -/
theorem cmdWord_ext {v w : CmdWord} (hmask : v &&& 0x700 = w &&& 0x700)
    (hdin : v.setWidth 8 = w.setWidth 8) : v = w := by
  rw [← cmdWord_fields v, ← cmdWord_fields w, opField_eq_of_mask_eq hmask, dinField_eq_setWidth,
    dinField_eq_setWidth, hdin]

/-- Outside ABSORB's row the decoder looks at the opcode alone (R54). -/
theorem decode_eq_of_opField_eq {v w : CmdWord} (h : opField v = opField w) (hw : opField w ≠ 1) :
    decode v = decode w := by
  have hw : opField w ≠ 0b001#3 := hw
  simp only [decode, h, if_neg hw]

/-- The decoder follows the rows of the opcode map, and looks at `din` for ABSORB only (R52, R54). -/
theorem decode_ok_iff_mask (w : CmdWord) (i : Instr) :
    decode w = .ok i ↔ w &&& 0x700 = tableMatch i ∧ ∀ b, i = .absorb b → w.setWidth 8 = b := by
  constructor
  · intro h
    refine ⟨mask_of_decode h, ?_⟩
    rintro b rfl
    exact din_of_decode_absorb h
  · rintro ⟨hmask, hdin⟩
    have hrow : w &&& 0x700 = encode i &&& 0x700 := hmask.trans (mask_of_decode (decode_encode i)).symm
    rw [← decode_encode i]
    cases i with
    | absorb b =>
      have hb : w.setWidth 8 = (encode (.absorb b)).setWidth 8 :=
        (hdin b rfl).trans (din_of_decode_absorb (decode_encode _)).symm
      rw [cmdWord_ext hrow hb]
    | nop | sreset | sum | size | bsize => exact decode_eq_of_opField_eq (opField_eq_of_mask_eq hrow) (by decide)

/-- The reserved rows of the opcode map (R52, R57). -/
theorem decode_error_iff_mask (w : CmdWord) (op : BitVec 3) : decode w = .error (.reservedOpcode op) ↔
    (op = 6 ∧ w &&& 0x700 = 0x600) ∨ (op = 7 ∧ w &&& 0x700 = 0x700) := by
  rw [decode_error_iff, ← mask_eq_iff w 6, ← mask_eq_iff w 7]
  rfl

/-- The canonical word of a command without operand has `din` 0 (R54). -/
theorem encode_din_of_ne_absorb {i : Instr} (hi : ∀ b, i ≠ .absorb b) : (encode i).setWidth 8 = (0 : Byte) := by
  cases i with
  | absorb b => exact absurd rfl (hi b)
  | nop | sreset | sum | size | bsize => rfl

/-! ## The refusals of the port -/

/-- The strap 0 is illegal (R62). -/
theorem portEvent_illegalStrap {p : StepInput} (h : p.cfgWidth = 0) (w : Width) :
    portEvent w p = .error .illegalStrap := by
  simp only [portEvent, (Width.ofStrap_eq_none _).2 h]

/-- A legal strap that does not hold W has changed (R62). -/
theorem portEvent_strapChanged {w : Width} {p : StepInput} (h0 : p.cfgWidth ≠ 0) (hs : p.cfgWidth ≠ w.strap) :
    portEvent w p = .error .strapChanged := by
  cases hv : Width.ofStrap p.cfgWidth with
  | none => exact absurd ((Width.ofStrap_eq_none _).1 hv) h0
  | some v =>
    have hvw : v ≠ w := by
      rintro rfl
      exact hs ((Width.ofStrap_eq_some _ _).1 hv)
    simp only [portEvent, hv, if_pos hvw]

/-- A second driver is refused (R118). -/
theorem portEvent_secondDriver {w : Width} {p : StepInput} (hs : p.cfgWidth = w.strap) (hd : p.otherDriver = true) :
    portEvent w p = .error .secondDriver := by
  simp [portEvent, hs, hd]

/-- Everything the port refuses, and on which ground (R57, R62, R98, R118). -/
theorem portEvent_error_iff (w : Width) (p : StepInput) (r : Refusal) : portEvent w p = .error r ↔
    (r = .illegalStrap ∧ p.cfgWidth = 0) ∨
    (r = .strapChanged ∧ p.cfgWidth ≠ 0 ∧ p.cfgWidth ≠ w.strap) ∨
    (r = .secondDriver ∧ p.cfgWidth = w.strap ∧ p.otherDriver = true) ∨
    (p.cfgWidth = w.strap ∧ p.otherDriver = false ∧ p.cmdValid = true ∧
      ∃ op, r = .reservedOpcode op ∧ decode p.cmd = .error (.reservedOpcode op)) := by
  by_cases h0 : p.cfgWidth = 0#2
  · rw [portEvent_illegalStrap h0 w]
    simp [h0, w.strap_ne_zero.symm, @eq_comm _ r]
  by_cases hs : p.cfgWidth = w.strap
  case neg =>
    rw [portEvent_strapChanged h0 hs]
    simp [hs, h0, @eq_comm _ r]
  cases hd : p.otherDriver with
  | true =>
    rw [portEvent_secondDriver hs hd]
    simp [hs, @eq_comm _ r]
  | false =>
    cases hv : p.cmdValid with
    | false =>
      rw [portEvent_good w p hs hd]
      simp [hs, hv]
    | true =>
      cases hi : decode p.cmd with
      | ok i =>
        rw [portEvent_good w p hs hd]
        simp [hs, hv, hi]
      | error e =>
        obtain ⟨op⟩ := e
        rw [portEvent_reserved w p op hs hd hv hi]
        simp [hs, @eq_comm _ r]

/-! ## The output pins -/

@[simp] theorem quietOut_cmdReady : quietOut.cmdReady = true := rfl
@[simp] theorem quietOut_rspValid : quietOut.rspValid = false := rfl
@[simp] theorem quietOut_rspLen : quietOut.rspLen = 0 := rfl
@[simp] theorem quietOut_rspData : quietOut.rspData = 0 := rfl

@[simp] theorem resetOut_cmdReady : resetOut.cmdReady = false := rfl
@[simp] theorem resetOut_rspValid : resetOut.rspValid = false := rfl

@[simp] theorem respondingOut_cmdReady (bytes : List Byte) : (respondingOut bytes).cmdReady = true := rfl
@[simp] theorem respondingOut_rspValid (bytes : List Byte) : (respondingOut bytes).rspValid = true := rfl

/-- SUM, SIZE and BSIZE respond, the other commands drive quiet outputs (R55). -/
theorem exec_out_cases {i : Instr} {s t : State} (h : exec i s = .next t) :
    ((i = .sum ∨ i = .size ∨ i = .bsize) ∧ ∃ bytes, t.out = respondingOut bytes) ∨
    ((i = .nop ∨ i = .sreset ∨ ∃ b, i = .absorb b) ∧ t.out = quietOut) := by
  cases i with
  | sum | size | bsize =>
    cases h
    exact .inl ⟨by simp, _, rfl⟩
  | nop | sreset =>
    cases h
    exact .inr ⟨by simp, rfl⟩
  | absorb b => exact .inr ⟨by simp, (exec_writesState_lanes_out rfl h).2⟩

/-- The rows of the opcode map that respond are those of SUM, SIZE and BSIZE (R52, R55). -/
theorem tableMatch_responds_iff (i : Instr) :
    (tableMatch i = 0x300 ∨ tableMatch i = 0x400 ∨ tableMatch i = 0x500) ↔
      (i = .sum ∨ i = .size ∨ i = .bsize) := by
  cases i <;> simp [tableMatch]

theorem State.digest_getD_of_lt {s : State} {k : Nat} (hk : k < s.width.lanes) : s.digest.getD k 0 = s.lane k := by
  simp [State.digest, hk]

/-- A response of one byte is that byte on the bus (R56). -/
theorem packBus_singleton (b : Byte) : packBus [b] = b.setWidth 24 := by
  simp [packBus, BitVec.setWidth_eq_append]

end Machine

end Sys2Proof

/-!
CERTIFICATES. The statements about the encoding and the command port (spec/30_encoding.md).
-/

namespace Sys2Proof.Certificates

open Sys2Proof.Machine

/-- Settles O27: a decoded word is in its command's row of the opcode map, as the canonical word is, and a word of the row is
fixed by its low byte. -/
theorem decodeAndEncodeAgree : Obligations.DecodeAndEncodeAgree := by
  refine ⟨fun i _ => decode_encode i, fun w i h => ?_⟩
  have hmask : encode i &&& 0x700 = w &&& 0x700 := (mask_of_decode (decode_encode i)).trans (mask_of_decode h).symm
  refine ⟨hmask, fun hdin => cmdWord_ext hmask ?_⟩
  by_cases hi : ∃ b, i = .absorb b
  · obtain ⟨b, rfl⟩ := hi
    rw [din_of_decode_absorb (decode_encode _), din_of_decode_absorb h]
  · rw [hdin.resolve_left hi, encode_din_of_ne_absorb (not_exists.1 hi)]

/-- Settles O17: the bus carries the bytes of the response at their places and 0 past them. -/
theorem responseBusPacking : Obligations.ResponseBusPacking := by
  refine fun s => ⟨⟨_, exec_sum s, rfl, ?_, fun k hk => ?_, fun k hk hk3 => ?_⟩,
    ⟨_, exec_size s, rfl, rfl, ?_⟩, ⟨_, exec_bsize s, rfl, rfl, rfl⟩, fun i hi => ?_⟩
  · exact (congrArg (BitVec.ofNat 2) s.digest_length).trans s.width.ofNat_lanes
  · exact (packBus_byte _ k (hk.trans_le s.width.lanes_le_max)).trans (State.digest_getD_of_lt hk)
  · exact (packBus_byte _ k hk3).trans (List.getD_eq_default _ _ (by simpa using hk))
  · exact (packBus_singleton _).trans (BitVec.setWidth_setWidth (by decide))
  · obtain ⟨t, ht⟩ := exec_total i s
    obtain ⟨hq, -⟩ | ⟨-, hout⟩ := exec_out_cases ht
    · obtain rfl | rfl | ⟨b, rfl⟩ := hi <;> simp at hq
    · exact ⟨t, ht, by simp [hout]⟩

/-- Settles O18, by the cases of a step: a HardReset is not ready and quiet, a step without a command ready and quiet, and a
command responds by its row of the opcode map. -/
theorem readyAndResponseByStep : Obligations.ReadyAndResponseByStep := by
  intro s t h
  obtain ⟨-, -, ⟨hr, -, rfl⟩ | ⟨hr, hv, rfl⟩ | ⟨i, hr, hv, hi, hx⟩⟩ := step_cases h
  · simp [hr]
  · simp [hr, hv]
  · rw [mask_of_decode hi, tableMatch_responds_iff]
    obtain ⟨hq, bytes, hout⟩ | ⟨hq, hout⟩ := exec_out_cases hx
    · simp [hr, hv, hq, hout]
    · have hn : ¬ (i = .sum ∨ i = .size ∨ i = .bsize) := by
        obtain rfl | rfl | ⟨b, rfl⟩ := hq <;> simp
      simp [hr, hv, hn, hout]

/-- Settles O22: the port alone refuses, and a presented word spells no command exactly in the reserved rows. -/
theorem stepIsRefusedExactlyOutsideTheSpec : Obligations.StepIsRefusedExactlyOutsideTheSpec := by
  intro s r
  have hreserved : (∃ op, r = .reservedOpcode op ∧ decode s.pins.cmd = .error (.reservedOpcode op)) ↔
      (r = .reservedOpcode 6 ∧ s.pins.cmd &&& 0x700 = 0x600) ∨
        (r = .reservedOpcode 7 ∧ s.pins.cmd &&& 0x700 = 0x700) := by
    simp only [decode_error_iff_mask, and_or_left, exists_or, and_left_comm, exists_eq_left]
  rw [step_refused_iff, portEvent_error_iff, hreserved]

/-- Settles O21: both steps drive quiet outputs and write nothing else. -/
theorem stepWithoutCommandHoldsTheState : Obligations.StepWithoutCommandHoldsTheState :=
  fun _ hs hd hr hv =>
    ⟨_, step_of_noCommand (portEvent_noCommand _ _ hs hd hr hv), ⟨rfl, rfl, rfl, rfl⟩, rfl, rfl, rfl⟩

/-- Settles O25: each row by its mask and match. -/
theorem decodeFollowsTheOpcodeMap : Obligations.DecodeFollowsTheOpcodeMap := by
  intro w
  refine ⟨fun h => ?_, fun h => ?_, fun h => ?_, fun h => ?_, fun h => ?_, fun h => ?_, fun h => ?_, fun h => ?_⟩
  · exact (decode_ok_iff_mask w .nop).2 ⟨h, nofun⟩
  · exact (decode_ok_iff_mask w (.absorb _)).2 ⟨h, fun _ => Instr.absorb.inj⟩
  · exact (decode_ok_iff_mask w .sreset).2 ⟨h, nofun⟩
  · exact (decode_ok_iff_mask w .sum).2 ⟨h, nofun⟩
  · exact (decode_ok_iff_mask w .size).2 ⟨h, nofun⟩
  · exact (decode_ok_iff_mask w .bsize).2 ⟨h, nofun⟩
  · exact (decode_error_iff_mask w 6).2 (.inl ⟨rfl, h⟩)
  · exact (decode_error_iff_mask w 7).2 (.inr ⟨rfl, h⟩)

/-- Settles O26: outside ABSORB's row the decoder reads the opcode alone. -/
theorem dinIsIgnoredWithoutOperand : Obligations.DinIsIgnoredWithoutOperand := by
  refine ⟨fun op d e hop => ?_, fun i hi => encode_din_of_ne_absorb hi⟩
  have hd : opField (op ++ d) = op := opField_cmdWord op d
  have he : opField (op ++ e) = op := opField_cmdWord op e
  exact decode_eq_of_opField_eq (hd.trans he.symm) (by rwa [he])

/-- Settles O30: the 9-bit sum keeps its low 8 bits. -/
theorem seedAddressIsAdditionMod256 : Obligations.SeedAddressIsAdditionMod256 := by
  intro b i
  simp [seedAddress_eq]

end Sys2Proof.Certificates

/-!
SUPPORT. The lanes after an ABSORB and after a reset, and what a sequence of ABSORBs and its grouping into Writes leave
(spec/40_absorb.md R69 to R79).
-/

namespace Sys2Proof.Machine

/-! ## The lanes after one step -/

@[simp] theorem State.seedStep_lane {s : State} {i : Nat} (hi : i < s.width.lanes) (b : Byte) :
    (s.seedStep b).lane i = s.romByte (seedAddress b i) :=
  State.lane_of_acc _ _ _ (s.seedStep_acc b) i hi

@[simp] theorem State.foldStep_lane {s : State} {i : Nat} (hi : i < s.width.lanes) (b : Byte) :
    (s.foldStep b).lane i = s.lane i ^^^ s.romByte b :=
  State.lane_of_acc _ _ _ (s.foldStep_acc b) i hi

@[simp] theorem State.foldStep_romByte (b : Byte) (s : State) : (s.foldStep b).romByte = s.romByte := rfl

/-- Either reset zeroes every lane (R81, R111). -/
theorem State.lane_eq_zero_of_acc_eq_clear {s t : State} (h : t.acc = s.clear.acc) {i : Nat} (hi : i < s.width.lanes) :
    t.lane i = 0 :=
  State.lane_of_acc _ _ _ h i hi

theorem State.getElem?_acc {s : State} {i : Nat} (hi : i < s.acc.length) : s.acc[i]? = some (s.lane i) := by
  simp [State.lane, hi]

/-- An awaiting state of the invariant holds zero lanes already (R20, R81). -/
theorem Invariant.acc_eq_clear {s : State} (hs : Invariant s) (hm : s.mode = .awaitingFirstByte) :
    s.acc = s.clear.acc := by
  rw [s.clear_acc_eq_replicate, ← hs.lanesExist]
  exact List.eq_replicate_of_mem (hs.awaitingMeansZero hm)

theorem widthByte_eq (w : Width) : widthByte w = BitVec.ofNat 8 w.lanes := by cases w <;> rfl

theorem State.respond_digest_response (s : State) : (s.respond s.digest).out.response = s.digest :=
  respondingOut_response _ (by simpa using s.width.lanes_le_max)

theorem State.respond_singleton_response (b : Byte) (s : State) : (s.respond [b]).out.response = [b] :=
  respondingOut_response _ (by simp [maxLanes])

theorem step_presenting_hardReset (s : State) (ps : List StepInput) :
    step (s.presenting (StepInput.hardReset s.width :: ps)) = .next (s.hardReset.presenting ps) :=
  step_of_hardReset (portEvent_hardReset _ _ rfl rfl rfl (.inl rfl))

/-! ## The lanes of a byte sequence -/

/-- Lane 0 treats the first byte as every other (R78). -/
theorem laneHash_zero (T : Addr → Byte) (l : List Byte) : laneHash T 0 l = xorAll (l.map T) := by
  cases l with
  | nil => rfl
  | cons b0 rest => rw [laneHash_cons, seedAddress_zero, List.map_cons, xorAll]

/-- The bytes after the first cancel between a lane and lane 0 (R76). -/
theorem laneHash_xor_lane_zero (T : Addr → Byte) (i : Nat) (b0 : Byte) (l : List Byte) :
    laneHash T i (b0 :: l) ^^^ laneHash T 0 (b0 :: l) = T (seedAddress b0 i) ^^^ T b0 := by
  rw [laneHash_eq_xor_lane_zero, BitVec.xor_assoc, BitVec.xor_self, BitVec.xor_zero, BitVec.xor_comm]

/-- Two equal bytes after the first cancel wherever they stand (R78). -/
theorem laneHash_cons_remove_pair (T : Addr → Byte) (i : Nat) (b0 x : Byte) (l m n : List Byte) :
    laneHash T i (b0 :: (l ++ [x] ++ m ++ [x] ++ n)) = laneHash T i (b0 :: (l ++ m ++ n)) := by
  have hperm : (l ++ [x] ++ m ++ [x] ++ n).Perm (x :: x :: (l ++ m ++ n)) := by
    have hfirst : (l ++ x :: (m ++ x :: n)).Perm (x :: (l ++ (m ++ x :: n))) := List.perm_middle
    have hsecond : ((l ++ m) ++ x :: n).Perm (x :: ((l ++ m) ++ n)) := List.perm_middle
    rw [List.append_assoc l m] at hsecond
    simpa using hfirst.trans (hsecond.cons x)
  rw [laneHash_cons_perm T i b0 hperm, laneHash_cons_pair]

/-! ## Sequences of ABSORBs -/

/-- The state after a byte sequence that is not empty: the closed form in the lanes, Streaming, and quiet outputs. -/
def State.absorbed (bytes : List Byte) (s : State) : State :=
  { s with acc := hashOf s.width s.romByte bytes, mode := .streaming, out := quietOut }

theorem State.absorbed_lane {s : State} {i : Nat} (hi : i < s.width.lanes) (bytes : List Byte) :
    (s.absorbed bytes).lane i = laneHash s.romByte i bytes :=
  State.lane_of_acc _ s.width.lanes (laneHash s.romByte · bytes) rfl i hi

theorem State.absorbed_congr {l m : List Byte} (s : State)
    (h : ∀ i, laneHash s.romByte i l = laneHash s.romByte i m) : s.absorbed l = s.absorbed m := by
  simp only [State.absorbed, hashOf, h]

theorem State.seedStep_eq_absorbed (b : Byte) (s : State) : s.seedStep b = s.absorbed [b] :=
  congrArg (fun acc => { s with acc := acc, mode := .streaming, out := quietOut }) (s.seedStep_holdsHash b).1

theorem State.foldStep_absorbed {h : List Byte} (hne : h ≠ []) (b : Byte) (s : State) :
    (s.absorbed h).foldStep b = s.absorbed (h ++ [b]) :=
  have hs : (s.absorbed h).HoldsHash h := ⟨rfl, (modeAfter_eq_streaming.2 hne).symm⟩
  congrArg (fun acc => { s with acc := acc, mode := .streaming, out := quietOut }) (State.foldStep_holdsHash hs hne b).1

/-- Further ABSORBs continue the byte sequence (R75). -/
theorem execAll_absorb_absorbed {h : List Byte} (hne : h ≠ []) (bs : List Byte) (s : State) :
    execAll (bs.map Instr.absorb) (s.absorbed h) = .next (s.absorbed (h ++ bs)) := by
  induction bs generalizing h with
  | nil => simp [execAll]
  | cons b bs ih =>
    rw [List.map_cons, execAll_cons _ (exec_absorb_streaming rfl b), State.foldStep_absorbed hne b s, ih (by simp),
      List.append_assoc, List.singleton_append]

/-- One byte or more from any awaiting state: the old lanes are forgotten (R70, R75). -/
theorem execAll_absorb_awaiting {s : State} (hm : s.mode = .awaitingFirstByte) (b0 : Byte) (rest : List Byte) :
    execAll ((b0 :: rest).map Instr.absorb) s = .next (s.absorbed (b0 :: rest)) := by
  rw [List.map_cons, execAll_cons _ (exec_absorb_awaiting hm b0), State.seedStep_eq_absorbed,
    execAll_absorb_absorbed (List.cons_ne_nil b0 []), List.singleton_append]

/-- The digest of a byte sequence from HardReset is the closed form (R75). -/
theorem execAll_absorb_initial (w : Width) (rom : List Host.Cell) (bs : List Byte) :
    ∃ t, execAll (bs.map Instr.absorb) (State.initial w rom) = .next t ∧ t.digest = hashOf w (Memory.read rom) bs := by
  obtain ⟨t, ht, hhash, hw, hr⟩ := execAll_holdsHash (bs.map Instr.absorb) (State.initial_holdsHash w rom)
  rw [foldl_absorbedByCommand_absorb, List.nil_append] at hhash
  refine ⟨t, ht, ?_⟩
  rw [hhash.digest, hw, State.romByte_eq_of_rom hr]
  rfl

/-! ## Host operations -/

theorem execAll_total (is : List Instr) (s : State) : ∃ t, execAll is s = .next t := by
  induction is generalizing s with
  | nil => exact ⟨s, rfl⟩
  | cons i is ih =>
    obtain ⟨u, hu⟩ := exec_total i s
    rw [execAll_cons is hu]
    exact ih u

/-- A Write returns the number of its bytes (R93). -/
theorem run_write {bs : List Byte} {s t : State} (h : execAll (bs.map Instr.absorb) s = .next t) :
    (HostOp.write bs).run s = .next (t, .count bs.length) := by
  simp [HostOp.run, HostOp.result, HostOp.commands, h]

theorem runHostOps_cons {op : HostOp} {ops : List HostOp} {s t u : State} {v : HostResult} {vs : List HostResult}
    (hop : op.run s = .next (t, v)) (hops : runHostOps ops t = .next (u, vs)) :
    runHostOps (op :: ops) s = .next (u, v :: vs) := by
  simp only [runHostOps, hop, hops]

/-- Writes of chunks, one after another, are the ABSORBs of all their bytes (R77, R91). -/
theorem runHostOps_writes {chunks : List (List Byte)} {s t : State}
    (h : execAll (chunks.flatten.map Instr.absorb) s = .next t) :
    runHostOps (chunks.map HostOp.write) s = .next (t, chunks.map fun c => .count c.length) := by
  induction chunks generalizing s with
  | nil =>
    cases h
    rfl
  | cons c chunks ih =>
    obtain ⟨u, hu⟩ := execAll_total (c.map Instr.absorb) s
    rw [List.flatten_cons, List.map_append, execAll_append hu] at h
    exact runHostOps_cons (run_write hu) (ih h)

end Sys2Proof.Machine

/-!
CERTIFICATES. The statements about ABSORB and the byte sequences it makes (spec/40_absorb.md).
-/

namespace Sys2Proof.Certificates

open Sys2Proof.Machine

/-- Settles O6: the seed step writes every lane from the table at its own address, and the addresses of the lanes differ. -/
theorem seedStepLoadsEveryLaneFromTheTable : Obligations.SeedStepLoadsEveryLaneFromTheTable := by
  refine fun s b hm => ⟨_, exec_absorb_awaiting hm b, rfl, by simp, fun i hi => ?_, rfl, rfl, fun hT i j hi hj h => ?_⟩
  · rw [State.getElem?_acc (by simpa using hi), State.seedStep_lane hi, seedAddress_eq]
  · rw [State.seedStep_lane hi, State.seedStep_lane hj] at h
    exact seedAddress_injective b i j (hi.trans_le s.width.lanes_le_max) (hj.trans_le s.width.lanes_le_max) (hT h)

/-- Settles O7: one byte is XORed into every lane, so it cancels between two lanes and against itself; on the finitely many
bytes a table without repeated values takes every value. -/
theorem foldStepXorsOneTableByteIntoEveryLane : Obligations.FoldStepXorsOneTableByteIntoEveryLane := by
  refine ⟨fun s b hm => ⟨_, exec_absorb_streaming hm b, rfl, by simp, fun i hi => ?_, rfl, rfl, fun i j hi hj => ?_,
    ⟨_, exec_absorb_streaming rfl b, fun i hi => ?_⟩, fun h0 i hi => ?_⟩, fun s hT => ?_⟩
  · rw [State.getElem?_acc (by simpa using hi), State.foldStep_lane hi]
  · rw [State.foldStep_lane hi, State.foldStep_lane hj, BitVec.xor_comm (s.lane j), BitVec.xor_assoc,
      ← BitVec.xor_assoc (s.romByte b), BitVec.xor_self, BitVec.zero_xor]
  · rw [State.foldStep_lane (by exact hi), State.foldStep_lane hi, State.foldStep_romByte, BitVec.xor_assoc,
      BitVec.xor_self, BitVec.xor_zero]
  · rw [State.foldStep_lane hi, h0]
    exact BitVec.xor_zero
  · obtain ⟨b, hb⟩ := Finite.surjective_of_injective hT 0
    exact ⟨b, hb, fun c hc => hT (hc.trans hb.symm)⟩

/-- Settles O16, row by row: each command's next state by its equation. -/
theorem transitionTable : Obligations.TransitionTable := by
  refine fun s => ⟨fun hm b => ⟨_, exec_absorb_awaiting hm b, rfl, fun i hi => ?_, rfl⟩,
    fun hm b => ⟨_, exec_absorb_streaming hm b, rfl, fun i hi => State.foldStep_lane hi b, rfl⟩,
    fun hm => ⟨_, exec_sreset s, rfl, fun i hi => State.lane_eq_zero_of_acc_eq_clear rfl hi,
      fun hs => (hs.acc_eq_clear hm).symm, rfl⟩,
    fun _ => ⟨_, exec_sreset s, rfl, fun i hi => State.lane_eq_zero_of_acc_eq_clear rfl hi, rfl⟩,
    ⟨_, step_presenting_hardReset s [], rfl, fun i hi => State.lane_eq_zero_of_acc_eq_clear rfl hi, rfl⟩,
    ⟨_, exec_nop s, rfl, rfl, rfl⟩,
    ⟨_, exec_sum s, rfl, rfl, s.respond_digest_response⟩,
    ⟨_, exec_size s, rfl, rfl, ?_⟩,
    ⟨_, exec_bsize s, rfl, rfl, s.respond_singleton_response blockSize⟩⟩
  · rw [State.seedStep_lane hi, seedAddress_eq]
  · rw [State.respond_singleton_response, widthByte_eq]

/-- Settles O36: the lanes are the closed form, in which the bytes after the first cancel between two lanes. -/
theorem laneRelationDependsOnTheFirstByteAlone : Obligations.LaneRelationDependsOnTheFirstByteAlone := by
  intro w rom ps b0 rest hps habs
  obtain ⟨t, ht, hhash, rfl, rfl⟩ := runSteps_holdsHash ps hps (State.initial_holdsHash w rom)
  rw [habs] at hhash
  have hlane0 := hhash.lane t.width.lanes_pos
  refine ⟨t, ht, hhash.2, fun i hi => ?_, fun i hi => ?_, fun hT i hi hpos h => ?_⟩
  · rw [hhash.lane hi, hlane0, laneHash_xor_lane_zero, seedAddress_eq]
    rfl
  · rw [hhash.lane hi, hlane0, laneHash_eq_xor_lane_zero, seedAddress_eq, BitVec.xor_comm, BitVec.xor_assoc]
    rfl
  · rw [hhash.lane hi, hlane0] at h
    have hi0 : i = 0 := laneHash_injective_lane hT (List.cons_ne_nil b0 rest)
      (hi.trans_le t.width.lanes_le_max) (by decide) (BitVec.xor_eq_zero_iff.1 h)
    omega

/-- Settles O38: the state after one byte or more is the closed form, in which the bytes after the first stand under an XOR,
and in lane 0 all of them. -/
theorem orderAfterTheFirstByteDoesNotMatter : Obligations.OrderAfterTheFirstByteDoesNotMatter := by
  refine ⟨fun s b0 rest rest' hm hperm => ?_, fun s b0 x l m n hm => ?_, fun s bs bs' hm hperm => ?_⟩
  · refine ⟨_, execAll_absorb_awaiting hm b0 rest, ?_⟩
    rw [execAll_absorb_awaiting hm, s.absorbed_congr fun i => laneHash_cons_perm s.romByte i b0 hperm]
  · refine ⟨_, execAll_absorb_awaiting hm b0 _, ?_⟩
    rw [execAll_absorb_awaiting hm, s.absorbed_congr fun i => laneHash_cons_remove_pair s.romByte i b0 x l m n]
  · cases bs with
    | nil =>
      rw [← hperm.nil_eq]
      exact ⟨s, s, rfl, rfl, rfl⟩
    | cons b0 rest =>
      obtain ⟨c0, rest', rfl⟩ := List.exists_cons_of_ne_nil fun h : bs' = [] => by simp [h] at hperm
      refine ⟨_, _, execAll_absorb_awaiting hm b0 rest, execAll_absorb_awaiting hm c0 rest', ?_⟩
      rw [State.absorbed_lane s.width.lanes_pos, State.absorbed_lane s.width.lanes_pos, laneHash_zero, laneHash_zero,
        xorAll_perm (hperm.map s.romByte)]

/-- Settles O39: both digests are the closed form, whose lane `i` does not depend on the width. -/
theorem narrowDigestIsAPrefixOfTheWideOne : Obligations.NarrowDigestIsAPrefixOfTheWideOne := by
  intro v w rom bs hvw
  obtain ⟨t, ht, htd⟩ := execAll_absorb_initial v rom bs
  obtain ⟨u, hu, hud⟩ := execAll_absorb_initial w rom bs
  refine ⟨t, u, ht, hu, ?_⟩
  rw [htd, hud, hashOf_eq_take, hashOf_eq_take w, List.take_take, min_eq_left hvw]

/-- Settles O40: both ways issue the ABSORBs of the same bytes in the same order. -/
theorem chunkingDoesNotMatter : Obligations.ChunkingDoesNotMatter := by
  intro s chunks
  obtain ⟨t, ht⟩ := execAll_total (chunks.flatten.map Instr.absorb) s
  exact ⟨t, _, runHostOps_writes ht, runHostOps_cons (run_write ht) rfl, rfl⟩

/-- Settles O45: SUM responds with the closed form, which is zero for no byte. -/
theorem oneShotHashIsTheClosedForm : Obligations.OneShotHashIsTheClosedForm := by
  refine fun w rom x => ⟨oneShotHash_eq_hashOf w rom x, ?_⟩
  rw [oneShotHash_eq_hashOf, hashOf_nil]

end Sys2Proof.Certificates

/-!
SUPPORT. Nothing reads the output pins, and a command that writes no state leaves the block as it is: why the control and
query commands disturb nothing (spec/41_control_and_query.md R80 to R86).
-/

namespace Sys2Proof.Machine

/-! ## Nothing reads the output pins -/

/-- A command does not look at the outputs as last driven: the block keeps no copy of a response (R19). -/
theorem exec_with_out (i : Instr) (s : State) (o : PortOut) : exec i { s with out := o } = exec i s := by
  cases i with
  | absorb b =>
    obtain ⟨t, ht⟩ := exec_total (.absorb b) s
    rw [ht]
    obtain ⟨hm, rfl⟩ | ⟨hm, rfl⟩ := exec_absorb_cases ht
    · exact exec_absorb_awaiting hm b
    · exact exec_absorb_streaming hm b
  | nop | sreset | sum | size | bsize => rfl

theorem execAll_with_out {is : List Instr} (hne : is ≠ []) (s : State) (o : PortOut) :
    execAll is { s with out := o } = execAll is s := by
  cases is with
  | nil => exact absurd rfl hne
  | cons i is => simp only [execAll, exec_with_out]

/-- No step looks at the outputs as last driven. -/
theorem step_with_out (s : State) (o : PortOut) : step { s with out := o } = step s := by
  have hport : portEvent { s with out := o }.width { s with out := o }.pins = portEvent s.width s.pins := rfl
  cases he : portEvent s.width s.pins with
  | error r => rw [step_refused_iff.2 he, step_refused_iff.2 (hport.trans he)]
  | ok e =>
    cases e with
    | hardReset => rw [step_of_hardReset he, step_of_hardReset (hport.trans he)]; rfl
    | noCommand => rw [step_of_noCommand he, step_of_noCommand (hport.trans he)]; rfl
    | command i =>
      rw [step_of_command he, step_of_command (hport.trans he)]
      exact exec_with_out i s.takePins o

/-- Runs that begin with the same step are the same. -/
theorem runSteps_congr {s t : State} (h : step s = step t) (k : Nat) : runSteps (k + 1) s = runSteps (k + 1) t := by
  cases ht : step t with
  | next u => rw [runSteps_next k ht, runSteps_next k (h.trans ht)]
  | fault r => exact absurd ht (step_not_fault t r)
  | refused r => rw [runSteps_refused k ht, runSteps_refused k (h.trans ht)]

/-! ## Commands that write no state -/

theorem exec_sameBlock_of_not_writesState {i : Instr} {s t : State} (hi : writesState i = false)
    (h : exec i s = .next t) : t.sameBlock s := by
  rw [exec_eq_of_not_writesState hi h]
  exact ⟨rfl, rfl, rfl, rfl⟩

/-- From states of one block, a sequence and its commands that write state end in one block (R83, R91). -/
theorem execAll_filter_writesState {s s' : State} (hs : s.sameBlock s') (is : List Instr) :
    ∃ t u, execAll is s = .next t ∧ execAll (is.filter writesState) s' = .next u ∧ t.sameBlock u := by
  induction is generalizing s s' with
  | nil => exact ⟨s, s', rfl, rfl, hs⟩
  | cons i is ih =>
    obtain ⟨v, hv⟩ := exec_total i s
    rw [execAll_cons is hv]
    cases hi : writesState i with
    | true =>
      obtain ⟨v', hv', hblock, -⟩ := exec_congr hs hv
      rw [List.filter_cons_of_pos hi, execAll_cons _ hv']
      exact ih hblock
    | false =>
      obtain ⟨hw, hr, ha, hm⟩ := exec_sameBlock_of_not_writesState hi hv
      obtain ⟨hw', hr', ha', hm'⟩ := hs
      rw [List.filter_cons_of_neg (by simp [hi])]
      exact ih ⟨hw.trans hw', hr.trans hr', ha.trans ha', hm.trans hm'⟩

/-! ## NOP -/

/-- The pins without a command and the pins of a NOP make the same step (R59, R80). -/
theorem step_presenting_idle (s : State) (ps : List StepInput) :
    step (s.presenting (StepInput.idle s.width :: ps)) = exec .nop (s.presenting ps) :=
  step_of_noCommand (portEvent_noCommand _ _ rfl rfl rfl rfl)

/-- A NOP before another command makes no difference (R80). -/
theorem execAll_nop_cons {is : List Instr} (hne : is ≠ []) (s : State) : execAll (.nop :: is) s = execAll is s := by
  rw [execAll_cons is (exec_nop s)]
  exact execAll_with_out hne s quietOut

/-! ## SUM -/

/-- At W = 1 a byte absorbed twice is a zero digest (R22, R83). -/
theorem absorbed_pair_digest_one {s : State} (hw : s.width = .one) (b : Byte) : (s.absorbed [b, b]).digest = [0] := by
  have hhash : (s.absorbed [b, b]).HoldsHash [b, b] := ⟨rfl, rfl⟩
  have hwidth : (s.absorbed [b, b]).width = .one := hw
  rw [hhash.digest, hwidth]
  exact congrArg (fun x => [x]) (laneHash_zero_pair_self _ b)

end Sys2Proof.Machine

/-!
CERTIFICATES. The statements about the control and query commands (spec/41_control_and_query.md).
-/

namespace Sys2Proof.Certificates

open Sys2Proof.Machine

/-- Settles O5: SRESET writes what HardReset writes, which depends on W alone, so a second one leaves it as it is and the next
ABSORB is the seed step. -/
theorem sresetZeroesTheLanes : Obligations.SresetZeroesTheLanes := by
  refine fun s => ⟨_, exec_sreset s, rfl, by simp, fun i hi => ?_, rfl, rfl, rfl, rfl, rfl,
    fun hs hm => ⟨rfl, rfl, (hs.acc_eq_clear hm).symm, hm.symm⟩, rfl,
    ⟨_, step_presenting_hardReset s [], rfl, rfl, rfl, rfl⟩,
    fun b => ⟨_, exec_absorb_awaiting rfl b, fun i hi => ?_⟩⟩
  · rw [State.getElem?_acc (by simpa using hi), State.lane_eq_zero_of_acc_eq_clear s.clear.quiet_acc hi]
  · rw [State.seedStep_lane (by exact hi), seedAddress_eq]
    rfl

/-- Settles O9: SUM drives the outputs only, which nothing reads; its response is the lanes, zero before the first byte and,
at W = 1, after a byte that cancels itself. -/
theorem sumIsNonDestructive : Obligations.SumIsNonDestructive := by
  refine ⟨fun s => ⟨_, _, exec_sum s, exec_sum _, rfl, ?_, fun bs hbs => ?_, fun hs hm => ?_⟩, fun rom b => ?_⟩
  · rw [State.respond_digest_response, State.digest_length]
  · exact execAll_with_out (by simpa using hbs) s (respondingOut s.digest)
  · rw [State.respond_digest_response, s.digest_eq_acc hs.lanesExist, hs.acc_eq_clear hm, s.clear_acc_eq_replicate]
  · refine ⟨_, execAll_append (execAll_absorb_awaiting rfl b [b]) [.sum], rfl, ?_⟩
    exact (State.respond_digest_response _).trans (absorbed_pair_digest_one rfl b)

/-- Settles O10: the response is the width, which no step changes. -/
theorem sizeRespondsWithTheWidth : Obligations.SizeRespondsWithTheWidth := by
  refine ⟨fun s => ⟨_, exec_size s, ⟨rfl, rfl, rfl, rfl⟩, rfl, rfl, ?_, s.width.lanes_pos, s.width.lanes_le_max⟩,
    fun s t h => ⟨_, _, exec_size s, exec_size t, ?_⟩⟩
  · rw [State.respond_singleton_response, widthByte_eq]
  · rw [State.respond_out, State.respond_out, (step_frame h).1]

/-- Settles O41, by induction on the commands: one that writes no state stays in the block, one that does depends on the
block alone. -/
theorem queriesAndNopsDoNotDisturbTheStream : Obligations.QueriesAndNopsDoNotDisturbTheStream := by
  intro s is
  obtain ⟨t, u, ht, hu, -, -, hacc, hmode⟩ := execAll_filter_writesState (s := s) ⟨rfl, rfl, rfl, rfl⟩ is
  exact ⟨t, u, ht, hu, hacc, hmode⟩

/-- Settles O42: the states after the two resets differ in the last outputs only, which the next step does not read. -/
theorem resetIdempotence : Obligations.ResetIdempotence := by
  refine fun s => ⟨_, _, exec_sreset s, step_presenting_hardReset s [], ⟨rfl, rfl, rfl, rfl⟩, fun ps k hk => ?_⟩
  obtain ⟨k, rfl⟩ := Nat.exists_eq_add_of_le' hk
  exact runSteps_congr (step_with_out (s.hardReset.presenting ps) quietOut) k

/-- Settles O4: NOP drives quiet outputs and writes nothing else, as a step without a command does. -/
theorem nopChangesNothing : Obligations.NopChangesNothing := by
  refine ⟨fun s => ⟨_, exec_nop s, ⟨rfl, rfl, rfl, rfl⟩, rfl, rfl, rfl⟩, fun s ps => ?_, fun s b c => ?_⟩
  · rw [step_presenting_idle, step_presenting_command]
  · obtain ⟨u, hu⟩ := exec_total (.absorb b) s
    rw [execAll_cons _ hu, execAll_cons _ hu, execAll_nop_cons (List.cons_ne_nil _ _)]
    obtain ⟨t, ht⟩ := execAll_total [.absorb c] u
    exact ⟨t, ht, ht⟩

/-- Settles O8: SUM drives the digest, which is one byte a lane. -/
theorem sumRespondsWithTheLanesInOrder : Obligations.SumRespondsWithTheLanesInOrder := by
  refine fun s => ⟨_, exec_sum s, ⟨rfl, rfl, rfl, rfl⟩, rfl, rfl, ?_, s.respond_digest_response⟩
  rw [State.respond_out, respondingOut_rspLen_toNat (by simpa using s.width.lanes_le_max), State.digest_length]

/-- Settles O11: BSIZE drives the one byte of the constant block size. -/
theorem bsizeRespondsWithOne : Obligations.BsizeRespondsWithOne :=
  fun s => ⟨_, exec_bsize s, ⟨rfl, rfl, rfl, rfl⟩, rfl, rfl, s.respond_singleton_response blockSize⟩

end Sys2Proof.Certificates

/-!
SUPPORT. What each host operation of one command answers (spec/42_host_operations.md R94 to R96).
-/

namespace Sys2Proof.Machine

/-- An operation that issues one command ends where the command does, and returns what it makes of its outputs (R61). -/
theorem run_of_command {op : HostOp} {i : Instr} {s t : State} (hop : op.commands = [i]) (h : exec i s = .next t) :
    op.run s = .next (t, op.result t.out) := by
  have hall : execAll op.commands s = .next t := by rw [hop, execAll_cons [] h, execAll]
  simp only [HostOp.run, hall]

theorem run_sum (buffer : List Byte) (s : State) :
    (HostOp.sum buffer).run s = .next (s.respond s.digest, .bytes (buffer ++ s.digest)) := by
  rw [run_of_command rfl (exec_sum s), HostOp.result, State.respond_digest_response]

theorem run_reset (s : State) : HostOp.reset.run s = .next (s.clear.quiet, .nothing) :=
  run_of_command rfl (exec_sreset s)

theorem widthByte_toNat (w : Width) : (widthByte w).toNat = w.lanes := by cases w <;> rfl

theorem run_size (s : State) :
    HostOp.size.run s = .next (s.respond [widthByte s.width], .int s.width.lanes) := by
  rw [run_of_command rfl (exec_size s), HostOp.result, State.respond_singleton_response, List.headD_cons,
    widthByte_toNat]

theorem run_blockSize (s : State) : HostOp.blockSize.run s = .next (s.respond [blockSize], .int 1) := by
  rw [run_of_command rfl (exec_bsize s), HostOp.result, State.respond_singleton_response]
  rfl

theorem State.respond_sameBlock (bytes : List Byte) (s : State) : (s.respond bytes).sameBlock s :=
  ⟨rfl, rfl, rfl, rfl⟩

/-- SRESET leaves the block as the constructor of its width and table did (R81, R90). -/
theorem State.clear_quiet_sameBlock_initial (s : State) : s.clear.quiet.sameBlock (State.initial s.width s.rom) :=
  ⟨rfl, rfl, s.clear_acc_eq_replicate, rfl⟩

end Sys2Proof.Machine

/-!
CERTIFICATES. The statement about the host's operations (spec/42_host_operations.md).
-/

namespace Sys2Proof.Certificates

open Sys2Proof.Machine

/-- Settles O44: a Write is its ABSORBs, none of them for the empty sequence; each other operation is one command, whose
response is the result. -/
theorem hostOperationsReturnWhatTheSourceSays : Obligations.HostOperationsReturnWhatTheSourceSays := by
  refine fun s => ⟨fun bs => ?_, fun buffer => ⟨_, run_sum buffer s, s.respond_sameBlock _⟩,
    ⟨_, run_reset s, s.clear_quiet_sameBlock_initial⟩, ⟨_, run_size s, s.respond_sameBlock _⟩,
    ⟨_, run_blockSize s, s.respond_sameBlock _⟩⟩
  obtain ⟨t, ht⟩ := execAll_total (bs.map Instr.absorb) s
  refine ⟨t, run_write ht, fun hbs => ?_⟩
  subst hbs
  cases ht
  rfl

end Sys2Proof.Certificates

/-!
SUPPORT. Runs over safe pins (spec/60_exceptions.md R100, R110).
-/

namespace Sys2Proof.Machine

/-- A run over safe pins goes on to its end and takes them all (R58, R100): a safe step goes on and keeps the width, by
which the next pins are safe. -/
theorem runSteps_safe_total {s : State} (ps : List StepInput) (hps : ∀ p ∈ ps, safeInput s.width p = true) :
    ∃ t, runSteps ps.length (s.presenting ps) = .next t ∧ t.inputs = [] := by
  induction ps generalizing s with
  | nil => exact ⟨_, rfl, rfl⟩
  | cons p ps ih =>
    obtain ⟨hp, hps⟩ := List.forall_mem_cons.1 hps
    obtain ⟨u, hu, huw, -, hpres⟩ := step_presenting_safe ps hp
    obtain ⟨t, ht, hin⟩ := ih (huw.symm ▸ hps)
    rw [hpres] at ht
    exact ⟨t, (runSteps_next _ hu).trans ht, hin⟩

end Sys2Proof.Machine

/-!
CERTIFICATES. The statement about commands and runs that never stop (spec/60_exceptions.md).
-/

namespace Sys2Proof.Certificates

open Sys2Proof.Machine

/-- Settles O23: each command has its equation, and a run over safe pins goes on by induction on them. -/
theorem commandsAndSafeRunsAreTotal : Obligations.CommandsAndSafeRunsAreTotal :=
  ⟨exec_total, fun _ ps hps => runSteps_safe_total ps hps⟩

end Sys2Proof.Certificates

/-!
SUPPORT. HardReset steps one after another (spec/70_reset_and_hazards.md R111, R112).
-/

namespace Sys2Proof.Machine

/-- HardReset leaves what the constructor of the same width and table does (R90, R111). -/
theorem State.hardReset_presenting_eq_initial (s : State) (ps : List StepInput) :
    s.hardReset.presenting ps = (State.initial s.width s.rom).presenting ps := by
  simp only [State.hardReset, State.presenting, s.clear_acc_eq_replicate, State.initial, State.clear_width,
    State.clear_rom, State.clear_mode]

/-- A HardReset step drops what is presented with it and keeps only W and T (R112). -/
theorem step_presenting_of_isHardReset {s : State} {p : StepInput} (ps : List StepInput)
    (hp : isHardReset s.width p = true) :
    step (s.presenting (p :: ps)) = .next ((State.initial s.width s.rom).presenting ps) :=
  (step_of_isHardReset hp).trans (congrArg Host.Outcome.next (s.hardReset_presenting_eq_initial ps))

/-- HardReset steps stay in the state that the constructor leaves (R112). -/
theorem runSteps_hardResets_initial {w : Width} (rom : List Host.Cell) (rs ps : List StepInput)
    (hrs : ∀ p ∈ rs, isHardReset w p = true) :
    runSteps rs.length ((State.initial w rom).presenting (rs ++ ps)) = .next ((State.initial w rom).presenting ps) := by
  induction rs with
  | nil => rfl
  | cons r rs ih =>
    obtain ⟨hr, hrs⟩ := List.forall_mem_cons.1 hrs
    exact (runSteps_next _ (step_presenting_of_isHardReset (s := State.initial w rom) (rs ++ ps) hr)).trans (ih hrs)

end Sys2Proof.Machine

/-!
CERTIFICATES. The statement about HardReset beside commands and repeated (spec/70_reset_and_hazards.md).
-/

namespace Sys2Proof.Certificates

open Sys2Proof.Machine

/-- Settles O3: one HardReset step leaves the constructor's state, which the HardReset steps after it keep. -/
theorem hardResetDropsTheCommandAndForgets : Obligations.HardResetDropsTheCommandAndForgets := by
  refine ⟨fun s p ps hp => ⟨_, step_presenting_of_isHardReset ps hp, ⟨rfl, rfl, rfl, rfl⟩, rfl, rfl, rfl⟩,
    fun s rs ps hne hrs => ?_⟩
  obtain ⟨r, rs, rfl⟩ := List.exists_cons_of_ne_nil hne
  obtain ⟨hr, hrs⟩ := List.forall_mem_cons.1 hrs
  exact (runSteps_next _ (step_presenting_of_isHardReset (rs ++ ps) hr)).trans
    (runSteps_hardResets_initial s.rom rs ps hrs)

end Sys2Proof.Certificates

/-!
SUPPORT. A ROM list in canonical form is the list of the table it reads as (spec/20_memory.md R30, R36).
-/

namespace Sys2Proof.Machine

/-- The canonical form by its entries. -/
theorem Memory.wf_iff (m : List Host.Cell) : Memory.wf m = true ↔
    Memory.risingFrom 0 m = true ∧ ∀ c ∈ m, c.1 < 256 ∧ c.2 ≠ unlistedByte (BitVec.ofNat 8 c.1) := by
  simp [Memory.wf]

theorem Memory.risingFrom_cons (low : Nat) (c : Host.Cell) (m : List Host.Cell) :
    Memory.risingFrom low (c :: m) = true ↔ low ≤ c.1 ∧ Memory.risingFrom (c.1 + 1) m = true := by
  simp [Memory.risingFrom]

/-- A rising list starts with its lower bound or lies above it. -/
theorem Memory.risingFrom_cases {low : Nat} {m : List Host.Cell} (h : Memory.risingFrom low m = true) :
    (∃ b n, m = (low, b) :: n ∧ Memory.risingFrom (low + 1) n = true) ∨ Memory.risingFrom (low + 1) m = true := by
  cases m with
  | nil => exact .inr rfl
  | cons c n =>
    obtain ⟨a, b⟩ := c
    obtain ⟨hlow, hn⟩ := (Memory.risingFrom_cons low _ n).1 h
    obtain rfl | hlt := Nat.eq_or_lt_of_le hlow
    · exact .inl ⟨b, n, rfl, hn⟩
    · exact .inr ((Memory.risingFrom_cons _ _ n).2 ⟨hlt, hn⟩)

/-- The list of a table that a canonical list reads as from `start` on is that list. -/
theorem Memory.cellsFrom_eq_of_read (T : Addr → Byte) (k start : Nat) (m : List Host.Cell) (hk : start + k = 256)
    (hrising : Memory.risingFrom start m = true)
    (hentries : ∀ c ∈ m, c.1 < 256 ∧ c.2 ≠ unlistedByte (BitVec.ofNat 8 c.1))
    (hread : ∀ a : Addr, start ≤ a.toNat → Memory.read m a = T a) : Memory.cellsFrom T start k = m := by
  induction k generalizing start m with
  | zero =>
    cases m with
    | nil => rfl
    | cons c m =>
      obtain ⟨hlow, -⟩ := (Memory.risingFrom_cons start c m).1 hrising
      obtain ⟨hhigh, -⟩ := hentries c List.mem_cons_self
      omega
  | succ k ih =>
    have hstart : (BitVec.ofNat 8 start : Addr).toNat = start := Nat.mod_eq_of_lt (by omega)
    have hT := hread (BitVec.ofNat 8 start) hstart.ge
    obtain ⟨b, n, rfl, hn⟩ | habove := Memory.risingFrom_cases hrising
    · obtain ⟨⟨-, hb⟩, hentries⟩ := List.forall_mem_cons.1 hentries
      rw [Memory.read_cons, if_pos hstart.symm] at hT
      have hreadTail (a : Addr) (ha : start + 1 ≤ a.toNat) : Memory.read n a = T a := by
        rw [← hread a (by omega), Memory.read_cons, if_neg (by simp; omega)]
      rw [Memory.cellsFrom, ← hT, if_neg hb, ih (start + 1) n (by omega) hn hentries hreadTail]
    · rw [Memory.read_below m (start + 1) habove _ (by omega)] at hT
      rw [Memory.cellsFrom, if_pos hT.symm]
      exact ih (start + 1) m (by omega) habove hentries fun a ha => hread a (by omega)

/-- A canonical list is the list of the table it reads as. -/
theorem Memory.ofTable_read {m : List Host.Cell} (h : Memory.wf m = true) : Memory.ofTable (Memory.read m) = m := by
  obtain ⟨hrising, hentries⟩ := (Memory.wf_iff m).1 h
  exact Memory.cellsFrom_eq_of_read _ 256 0 m rfl hrising hentries fun _ _ => rfl

end Sys2Proof.Machine

/-!
CERTIFICATES. The statement about the form of the ROM's list (spec/20_memory.md).
-/

namespace Sys2Proof.Certificates

open Sys2Proof.Machine

/-- Settles O32: `Memory.ofTable` gives the list of every table, and every canonical list is the one it gives for the table
the list reads as. -/
theorem everyTableHasOneCanonicalRom : Obligations.EveryTableHasOneCanonicalRom := by
  refine ⟨fun T => ⟨Memory.ofTable_wf T, Memory.read_ofTable T⟩, fun m n hm hn hread => ?_⟩
  rw [← Memory.ofTable_read hm, ← Memory.ofTable_read hn, funext hread]

end Sys2Proof.Certificates

/-!
SUPPORT. The words of an assembly line: its text is those words with a space between each two, its tokens are those words,
and the words spell the line (spec/30_encoding.md R60).
-/

namespace Sys2Proof.Machine

/-! ## The reader on plain words -/

/-- A character that neither ends a word nor begins a quoted one. -/
def asmPlain (c : Char) : Bool := c != ';' && !asmBlank c && c != asmQuote

theorem asmPlain_iff (c : Char) : asmPlain c = true ↔ c ≠ ';' ∧ asmBlank c = false ∧ c ≠ asmQuote := by
  simp [asmPlain, and_assoc]

/-- A word of plain characters, one at least. -/
def asmPlainWord (w : List Char) : Bool := !w.isEmpty && w.all asmPlain

theorem asmPlainWord_cons (c : Char) (w : List Char) :
    asmPlainWord (c :: w) = true ↔ asmPlain c = true ∧ ∀ d ∈ w, asmPlain d = true := by
  simp [asmPlainWord]

/-- Further words, each after a space. -/
def spacedWords (ws : List (List Char)) : List Char := (ws.map (' ' :: ·)).flatten

@[simp] theorem spacedWords_nil : spacedWords [] = [] := rfl

@[simp] theorem spacedWords_cons (w : List Char) (ws : List (List Char)) :
    spacedWords (w :: ws) = ' ' :: (w ++ spacedWords ws) := rfl

theorem spacedWords_append (vs ws : List (List Char)) : spacedWords (vs ++ ws) = spacedWords vs ++ spacedWords ws := by
  simp [spacedWords]

/-- Plain characters continue the word. -/
theorem asmTokens_inWord_append (r w cs : List Char) (hw : ∀ c ∈ w, asmPlain c = true) :
    asmTokens (.inWord r) (w ++ cs) = asmTokens (.inWord (w.reverse ++ r)) cs := by
  induction w generalizing r with
  | nil => rfl
  | cons c w ih =>
    obtain ⟨hc, hw⟩ := List.forall_mem_cons.1 hw
    obtain ⟨hsemi, hblank, -⟩ := (asmPlain_iff c).1 hc
    simp [asmTokens, hsemi, hblank, ih _ hw]

/-- A plain word begins at its first character. -/
theorem asmTokens_between_append {w : List Char} (hw : asmPlainWord w = true) (cs : List Char) :
    asmTokens .between (w ++ cs) = asmTokens (.inWord w.reverse) cs := by
  cases w with
  | nil => exact nomatch hw
  | cons c w =>
    obtain ⟨hc, hw⟩ := (asmPlainWord_cons c w).1 hw
    obtain ⟨hsemi, hblank, hquote⟩ := (asmPlain_iff c).1 hc
    simp [asmTokens, hsemi, hblank, hquote, asmTokens_inWord_append [c] w cs hw]

/-- The rest of a line of plain words, after the word `r` read so far. -/
theorem asmTokens_spacedWords (r : List Char) (ws : List (List Char)) (hws : ∀ w ∈ ws, asmPlainWord w = true) :
    asmTokens (.inWord r) (spacedWords ws) = some (.word r.reverse :: ws.map .word) := by
  induction ws generalizing r with
  | nil => rfl
  | cons w ws ih =>
    obtain ⟨hw, hws⟩ := List.forall_mem_cons.1 hws
    simp [asmTokens, asmBlank, asmTokens_between_append hw, ih _ hws]

/-- The tokens of a line of plain words are the words. -/
theorem asmTokens_words {w : List Char} (hw : asmPlainWord w = true) (ws : List (List Char))
    (hws : ∀ v ∈ ws, asmPlainWord v = true) :
    asmTokens .between (w ++ spacedWords ws) = some (.word w :: ws.map .word) := by
  rw [asmTokens_between_append hw, asmTokens_spacedWords _ ws hws, List.reverse_reverse]

/-! ## Hexadecimal bytes -/

theorem digitValue_hexDigit : ∀ n < 16, digitValue 16 (hexDigit n) = some n := by decide

theorem asmPlain_hexDigit : ∀ n < 16, asmPlain (hexDigit n) = true := by decide

theorem digitsValue_hexByte (b : Byte) : digitsValue 16 0 (hexByte b) = some b.toNat := by
  have hb := b.isLt
  simp only [hexByte, digitsValue, digitValue_hexDigit (b.toNat / 16) (by omega),
    digitValue_hexDigit (b.toNat % 16) (by omega), Option.some.injEq]
  omega

theorem asmPlain_of_mem_hexByte {b : Byte} {c : Char} (hc : c ∈ hexByte b) : asmPlain c = true := by
  have hb := b.isLt
  obtain rfl | rfl : c = hexDigit (b.toNat / 16) ∨ c = hexDigit (b.toNat % 16) := by simpa [hexByte] using hc
  · exact asmPlain_hexDigit _ (by omega)
  · exact asmPlain_hexDigit _ (by omega)

theorem asmPlainWord_hexByte (b : Byte) : asmPlainWord (hexByte b) = true :=
  List.all_eq_true.2 fun _ => asmPlain_of_mem_hexByte

/-- A byte operand as text: `0x` and its two digits. -/
def operandWord (b : Byte) : List Char := '0' :: 'x' :: hexByte b

theorem asmPlainWord_operandWord (b : Byte) : asmPlainWord (operandWord b) = true :=
  (asmPlainWord_cons _ _).2 ⟨rfl, List.forall_mem_cons.2 ⟨rfl, fun _ => asmPlain_of_mem_hexByte⟩⟩

theorem byteOperand_operandWord (b : Byte) : byteOperand (.word (operandWord b)) = some b := by
  have hnumber : numberValue (operandWord b) = some b.toNat := digitsValue_hexByte b
  simp [byteOperand, hnumber, byteNumberWellFormed, b.isLt]

theorem responseByte_hexByte (b : Byte) : responseByte (.word (hexByte b)) = some b := by
  have hdigits : responseByte (.word (hexByte b)) = (digitsValue 16 0 (hexByte b)).map (BitVec.ofNat 8) := rfl
  rw [hdigits, digitsValue_hexByte, Option.map_some, BitVec.ofNat_toNat, BitVec.setWidth_eq]

/-! ## The words of a line -/

/-- The words of a response column. -/
def responseWords : Option (List Byte) → List (List Char)
  | none => []
  | some bs => ['-', '>'] :: bs.map hexByte

/-- The operands of a command as words. -/
def Instr.operandWords : Instr → List (List Char)
  | .absorb b => [operandWord b]
  | .nop | .sreset | .sum | .size | .bsize => []

/-- The digit of a width. -/
def widthWord : Width → List Char
  | .one => ['1']
  | .two => ['2']
  | .three => ['3']

/-- The first word of a line. -/
def AsmLine.headWord : AsmLine → List Char
  | .width _ => widthText
  | .hardreset => hardresetText
  | .command i _ => Instr.mnemonicText i

/-- The words of a line after the first. -/
def AsmLine.tailWords : AsmLine → List (List Char)
  | .width w => [widthWord w]
  | .hardreset => []
  | .command i r => Instr.operandWords i ++ responseWords r

theorem renderInstr_eq_words (i : Instr) :
    renderInstr i = Instr.mnemonicText i ++ spacedWords (Instr.operandWords i) := by
  cases i with
  | absorb b => simp [renderInstr, Instr.operandWords, operandWord]
  | nop | sreset | sum | size | bsize => rfl

theorem renderResponse_eq_words (r : Option (List Byte)) : renderResponse r = spacedWords (responseWords r) := by
  cases r with
  | none => rfl
  | some bs => simp [renderResponse, responseWords, spacedWords, Function.comp_def]

/-- The text of a line is its words, a space before each after the first. -/
theorem AsmLine.render_eq_words (l : AsmLine) : l.render = l.headWord ++ spacedWords l.tailWords := by
  cases l with
  | width w => cases w <;> rfl
  | hardreset => rfl
  | command i r =>
    rw [AsmLine.render, renderInstr_eq_words, renderResponse_eq_words, AsmLine.tailWords, spacedWords_append,
      ← List.append_assoc, AsmLine.headWord]

theorem AsmLine.asmPlainWord_headWord (l : AsmLine) : asmPlainWord l.headWord = true := by
  cases l with
  | width w => rfl
  | hardreset => rfl
  | command i r => cases i <;> rfl

theorem asmPlainWord_of_mem_responseWords {r : Option (List Byte)} {w : List Char} (hw : w ∈ responseWords r) :
    asmPlainWord w = true := by
  cases r with
  | none => exact nomatch hw
  | some bs =>
    obtain rfl | ⟨b, -, rfl⟩ : w = ['-', '>'] ∨ ∃ b ∈ bs, hexByte b = w := by simpa [responseWords] using hw
    · rfl
    · exact asmPlainWord_hexByte b

theorem asmPlainWord_of_mem_operandWords {i : Instr} {w : List Char} (hw : w ∈ Instr.operandWords i) :
    asmPlainWord w = true := by
  cases i with
  | absorb b =>
    obtain rfl := List.mem_singleton.1 hw
    exact asmPlainWord_operandWord b
  | nop | sreset | sum | size | bsize => exact nomatch hw

theorem AsmLine.asmPlainWord_of_mem_tailWords {l : AsmLine} {w : List Char} (hw : w ∈ l.tailWords) :
    asmPlainWord w = true := by
  cases l with
  | width v =>
    obtain rfl := List.mem_singleton.1 hw
    cases v <;> rfl
  | hardreset => exact nomatch hw
  | command i r => exact (List.mem_append.1 hw).elim asmPlainWord_of_mem_operandWords asmPlainWord_of_mem_responseWords

/-! ## The words spell the line -/

theorem responseBytes_hexBytes (bs : List Byte) : responseBytes ((bs.map hexByte).map .word) = some bs := by
  induction bs with
  | nil => rfl
  | cons b bs ih => simp only [List.map_cons, responseBytes, responseByte_hexByte, ih]

theorem responseColumn_responseWords (r : Option (List Byte)) :
    responseColumn ((responseWords r).map .word) = some r := by
  cases r with
  | none => rfl
  | some bs => simp only [responseWords, List.map_cons, responseColumn, if_pos, responseBytes_hexBytes, Option.map_some]

theorem widthOperand_widthWord (w : Width) : widthOperand (.word (widthWord w)) = some w := by
  cases w <;> simp [widthOperand, widthWord]

theorem asmLineOfTokens_width {t : AsmToken} {w : Width} (h : widthOperand t = some w) :
    asmLineOfTokens [.word widthText, t] = some (some (.width w)) := by
  simp [asmLineOfTokens, widthText, hardresetText, h]

/-- A mnemonic and its operands, before a response column, are the command. -/
theorem asmLineOfTokens_command (i : Instr) {ts : List AsmToken} {r : Option (List Byte)}
    (hr : responseColumn ts = some r) :
    asmLineOfTokens (.word (Instr.mnemonicText i) :: ((Instr.operandWords i).map .word ++ ts)) =
      some (some (.command i r)) := by
  cases i with
  | absorb b =>
    simp [asmLineOfTokens, Instr.mnemonicText, Instr.operandWords, widthText, hardresetText, byteOperand_operandWord, hr]
  | nop | sreset | sum | size | bsize =>
    simp [asmLineOfTokens, Instr.mnemonicText, Instr.operandWords, widthText, hardresetText, hr]

/-- The words of a line, as tokens, spell the line. -/
theorem asmLineOfTokens_words (l : AsmLine) :
    asmLineOfTokens (.word l.headWord :: l.tailWords.map .word) = some (some l) := by
  cases l with
  | width w => exact asmLineOfTokens_width (widthOperand_widthWord w)
  | hardreset => rfl
  | command i r =>
    rw [AsmLine.headWord, AsmLine.tailWords, List.map_append]
    exact asmLineOfTokens_command i (responseColumn_responseWords r)

/-- A line's text is read back by its tokens, which are its words. -/
theorem parseAsmLine_render (l : AsmLine) : parseAsmLine l.render = some (some l) := by
  have htokens : asmTokens .between l.render = some (.word l.headWord :: l.tailWords.map .word) := by
    rw [l.render_eq_words, asmTokens_words l.asmPlainWord_headWord _ fun _ => AsmLine.asmPlainWord_of_mem_tailWords]
  simp only [parseAsmLine, htokens, asmLineOfTokens_words]

end Sys2Proof.Machine

/-!
CERTIFICATES. The statement about the assembly text (spec/30_encoding.md R60).
-/

namespace Sys2Proof.Certificates

open Sys2Proof.Machine

/-- Settles O29: the text of a line is words of plain characters with spaces between them, so its tokens are those words, and
each word is read as what it was written for. -/
theorem assemblyTextReadsBack : Obligations.AssemblyTextReadsBack := parseAsmLine_render

end Sys2Proof.Certificates

/-!
SUPPORT. The reset state as a constructed state, and the step of a placed command word.
-/

namespace Sys2Proof.Machine

/-- The model's own reset state is what the constructor of width 3 leaves with the table of R45 (R90, R111). -/
theorem State.reset_eq_initial : State.reset = State.initial .three [] := rfl

/-- A HardReset step leaves the constructor's state of its width and table, the rest still presented (R111). -/
theorem step_of_isHardReset_eq_initial {s : State} (h : isHardReset s.width s.pins = true) :
    step s = .next ((State.initial s.width s.rom).presenting s.inputs.tail) :=
  (step_of_isHardReset h).trans (congrArg Host.Outcome.next (s.hardReset_presenting_eq_initial s.inputs.tail))

theorem Invariant.initial (w : Width) {rom : List Host.Cell} (h : Memory.wf rom = true) :
    Invariant (State.initial w rom) :=
  .of_zero_lanes (by simp) h outputsWellFormed_resetOut

/-- A number that spells a command fits the port, which then decodes it (R50). -/
theorem decode_of_decodeTableWord {nbits w : Nat} {i : Instr} (h : decodeTableWord nbits w = some i) :
    decode (BitVec.ofNat 11 (w % 2 ^ nbits)) = .ok i := by
  cases hd : decode (BitVec.ofNat 11 (w % 2 ^ nbits)) with
  | ok j =>
    obtain ⟨-, hij⟩ : w % 2 ^ nbits < 2 ^ 11 ∧ j = i := by simpa [decodeTableWord, hd] using h
    rw [hij]
  | error e => simp [decodeTableWord, hd] at h

/-- A word on the pins that spells a command makes the step that command (R50, R51). -/
theorem portEvent_word {c : CmdWord} {i : Instr} (w : Width) (h : decode c = .ok i) :
    portEvent w (StepInput.word w c) = .ok (.command i) :=
  portEvent_command w _ i rfl rfl rfl rfl h

@[simp] theorem State.withFetchWord_takePins (s : State) (nbits w : Nat) : (s.withFetchWord nbits w).takePins = s := rfl

end Sys2Proof.Machine

/-!
CERTIFICATES. The statements about the reset state, the decoded and the placed command, and the example words.
-/

namespace Sys2Proof.Certificates

open Sys2Proof.Machine

/-- Settles O2: a HardReset step leaves the constructor's state of its width and table, and `State.reset` is the one of
width 3 and the table of R45. -/
theorem resetStateIsTheHardResetState : Obligations.ResetStateIsTheHardResetState := by
  refine ⟨fun s hw hr h => ?_, by decide, rfl⟩
  rw [step_of_isHardReset_eq_initial h, hw, hr, ← State.reset_eq_initial]
  rfl

/-- Settles O19: the port makes a command of such pins. -/
theorem stepRunsTheDecodedCommand : Obligations.StepRunsTheDecodedCommand :=
  fun _ i hs hd hr hv hi => step_of_command (portEvent_command _ _ i hs hd hr hv hi)

/-- Settles O20: the placed word makes good pins, and a step that takes them leaves the state as it was. -/
theorem placedWordRunsInTheNextStep : Obligations.PlacedWordRunsInTheNextStep := by
  intro s nbits w i h
  have hport : portEvent (s.withFetchWord nbits w).width (s.withFetchWord nbits w).pins = .ok (.command i) :=
    portEvent_word s.width (decode_of_decodeTableWord h)
  rw [step_of_command hport, State.withFetchWord_takePins]

/-- Settles O28: each word, evaluated. -/
theorem exampleWordsDecode : Obligations.ExampleWordsDecode := by
  unfold Obligations.ExampleWordsDecode
  decide

/-- Settles O34: a constructed state has zeroed lanes and the outputs of a HardReset step; the reset state is one. -/
theorem resetMeetsTheInvariant : Obligations.ResetMeetsTheInvariant :=
  ⟨Invariant.initial .three Memory.wf_nil, fun w _ h => Invariant.initial w h⟩

end Sys2Proof.Certificates
